-- ==== Sys2Proof/Word.lean ====
section
/-! DEFINITION. The word types of the core: the widths the spec fixes (00_scope.md R7, R8; 10_state.md R13). -/

namespace Sys2Proof

/-- A register or data-cell value: unsigned, 4 bits (R8, R34). -/
abbrev Nibble := BitVec 4

/-- A data address: 10 bits, 1024 cells (R33). -/
abbrev DataAddr := BitVec 10

/-- A program address: 14 bits, 16384 words (R41). -/
abbrev ProgAddr := BitVec 14

/-- An instruction word, 10 bits: an opcode word or a second word (R54). -/
abbrev OpWord := BitVec 10

/-- The first data address of the stack window 0x3C0-0x3FF (R35). -/
abbrev stackWindowBase : Nat := 0x3C0

end Sys2Proof
end

