-- ==== Sys2Proof/Syntax.lean ====
section
/-! DEFINITION. The instruction set as syntax: one constructor of `Instr` per row of spec/opcode_table.json
(30_encoding.md R70), its operands already read out of the words (R56-R59). `Handler` is the dispatcher's answer
for an opcode word alone (R60), before the literal and the second word are filled in. -/

namespace Sys2Proof

/-- The data registers an operand may name (R31). -/
inductive DataReg where
  | a | b | w
deriving DecidableEq, Repr, Inhabited

/-- The index registers (R17, R31). -/
inductive IdxReg where
  | x | y
deriving DecidableEq, Repr, Inhabited

/-- The registers a compare-and-skip may name (R31, R105). -/
inductive CmpReg where
  | a | b | x | y
deriving DecidableEq, Repr, Inhabited

/-- The four `(rd,rs)` pairs of `MOV` (R85). -/
inductive MovPair where
  | ab | ba | wa | aw
deriving DecidableEq, Repr, Inhabited

/-- The registers of `LDI r,#i` other than the accumulator (R93). -/
inductive LdiReg where
  | b | w
deriving DecidableEq, Repr, Inhabited

/-- The direction of an auto-index form (R90, R91). -/
inductive Dir where
  | inc | dec
deriving DecidableEq, Repr, Inhabited

/-- A memory operand `m`: `(X)`, `(Y)` or `(d)` (R40). -/
inductive MemOp where
  | idx (i : IdxReg)
  | direct (d : DataAddr)
deriving DecidableEq, Repr, Inhabited

/-- A source operand `s`: `#i`, `(X)`, `(Y)` or `(d)` (R74). -/
inductive SrcOp where
  | imm (i : Nibble)
  | mem (m : MemOp)
deriving DecidableEq, Repr, Inhabited

/-- The instructions, one constructor per handler schema of R70. A control transfer, a latch operation and an
unassigned opcode keep their opcode word: their targets, arguments and events are functions of it (R111-R115,
R121, R122). -/
inductive Instr where
  /-- `MOV rd,rs` (R85). -/
  | mov (p : MovPair)
  /-- `LD r,(i)` (R86). -/
  | ldIdx (r : DataReg) (i : IdxReg)
  /-- `LD r,(d)` (R87). -/
  | ldDir (r : DataReg) (d : DataAddr)
  /-- `ST r,(i)` (R88). -/
  | stIdx (r : DataReg) (i : IdxReg)
  /-- `ST r,(d)` (R89). -/
  | stDir (r : DataReg) (d : DataAddr)
  /-- `LD r,(i+)`, `LD r,(i-)` (R90). -/
  | ldAuto (r : DataReg) (i : IdxReg) (dir : Dir)
  /-- `ST r,(i+)`, `ST r,(i-)` (R91). -/
  | stAuto (r : DataReg) (i : IdxReg) (dir : Dir)
  /-- `LDI A,#i` (R92). -/
  | ldiA (n : Nibble)
  /-- `LDI r,#i`, `r` in B, W (R93). -/
  | ldiR (r : LdiReg) (n : Nibble)
  /-- `LDI x,#i`, `x` in X, Y (R94). -/
  | ldiX (i : IdxReg) (n : Nibble)
  /-- `ADD A,s` (R95). -/
  | add (o : SrcOp)
  /-- `ADC A,s` (R96). -/
  | adc (o : SrcOp)
  /-- `SBC A,s` (R97). -/
  | sbc (o : SrcOp)
  /-- `INC m` (R98). -/
  | incM (m : MemOp)
  /-- `DEC m` (R99). -/
  | decM (m : MemOp)
  /-- `DAA` (R100). -/
  | daa
  /-- `DAS` (R101). -/
  | das
  /-- `AND A,m` (R102). -/
  | andA (m : MemOp)
  /-- `OR A,m` (R103). -/
  | orA (m : MemOp)
  /-- `XOR A,m` (R104). -/
  | xorA (m : MemOp)
  /-- `SKEQ r,s` (R105). -/
  | skeq (r : CmpReg) (o : SrcOp)
  /-- `SKNE r,s` (R106). -/
  | skne (r : CmpReg) (o : SrcOp)
  /-- `SKLT r,s` (R107). -/
  | sklt (r : CmpReg) (o : SrcOp)
  /-- `BSET n,m` (R108). -/
  | bset (n : Fin 4) (m : MemOp)
  /-- `BCLR n,m` (R109). -/
  | bclr (n : Fin 4) (m : MemOp)
  /-- `BTST n,m` (R110). -/
  | btst (n : Fin 4) (m : MemOp)
  /-- `BR a` (R111). -/
  | br (op : OpWord)
  /-- `BRL a` (R112). -/
  | brl (op : OpWord) (w2 : OpWord)
  /-- `BRT` (R113). -/
  | brt (op : OpWord)
  /-- `BNZ a`, the opcode 0x244 exactly (R114). -/
  | bnz
  /-- `CALL a`, one or two words (R115). -/
  | call (op : OpWord) (w2 : OpWord)
  /-- `RET` (R116). -/
  | ret
  /-- `RETI` (R117). -/
  | reti
  /-- `NOP` (R118). -/
  | nop
  /-- `STBY` (R119). -/
  | stby
  /-- `STOP` (R120). -/
  | stop
  /-- `LATCH k`; the selector `k` is a field of the opcode word (R121). -/
  | latch (k : OpWord) (op : OpWord)
  /-- Every opcode no tier assigns (R122). -/
  | illegal (op : OpWord)
deriving DecidableEq, Repr, Inhabited

/-- How an opcode word says a memory operand is addressed; `(d)` takes its address from the second word (R57). -/
inductive MemMode where
  | idx (i : IdxReg)
  | direct
deriving DecidableEq, Repr, Inhabited

/-- How an opcode word says a source operand is given; an immediate is `op[3:0]` (R59). -/
inductive SrcMode where
  | imm
  | mem (m : MemMode)
deriving DecidableEq, Repr, Inhabited

/-- What the dispatcher's map gives for an opcode word (R60, R70): a schema with its operand fields, less `op[3:0]`
and the second word. `LDI A` and `BNZ` are not here: their encodings are fixed (R62, R63) and no map may move them. -/
inductive Handler where
  | mov (p : MovPair)
  | ldIdx (r : DataReg) (i : IdxReg)
  | ldDir (r : DataReg)
  | stIdx (r : DataReg) (i : IdxReg)
  | stDir (r : DataReg)
  | ldAuto (r : DataReg) (i : IdxReg) (dir : Dir)
  | stAuto (r : DataReg) (i : IdxReg) (dir : Dir)
  | ldiR (r : LdiReg)
  | ldiX (i : IdxReg)
  | add (o : SrcMode)
  | adc (o : SrcMode)
  | sbc (o : SrcMode)
  | incM (m : MemMode)
  | decM (m : MemMode)
  | daa
  | das
  | andA (m : MemMode)
  | orA (m : MemMode)
  | xorA (m : MemMode)
  | skeq (r : CmpReg) (o : SrcMode)
  | skne (r : CmpReg) (o : SrcMode)
  | sklt (r : CmpReg) (o : SrcMode)
  | bset (n : Fin 4) (m : MemMode)
  | bclr (n : Fin 4) (m : MemMode)
  | btst (n : Fin 4) (m : MemMode)
  | br
  | brl
  | brt
  | call
  | ret
  | reti
  | nop
  | stby
  | stop
  | latch (k : OpWord)
  | illegal
deriving DecidableEq, Repr, Inhabited

/-- What `DECODE` gives for an opcode word (R60): one of the two fixed schemas (R62, R63), or a row's handler. -/
inductive Dispatched where
  | ldiA
  | bnz
  | row (h : Handler)
deriving DecidableEq, Repr, Inhabited

end Sys2Proof
end

