-- ==== Sys2Proof/Config.lean ====
section
/-! DEFINITION. The parameters of 00_scope.md R5. A parameter that is plain data (a number, a choice, a finite table)
is a field of `Params`, which the state carries in its field `par`, so that a statement about every state is about
every value of it. A parameter that is a function over a large domain, and every free value, is an `opaque` constant
of `Config` without a body. -/

namespace Sys2Proof

/-! ## Uninterpreted constants -/

/-- `draw_1` (R10): the value of the `n`-th draw, where one bit is drawn. DESIGN CHOICE, safe (log 11). -/
opaque Config.freeBit : Nat → BitVec 1

/-- `draw_4` (R10, R37): the value of the `n`-th draw, where a nibble is drawn. DESIGN CHOICE, safe (log 11). -/
opaque Config.freeNibble : Nat → Nibble

/-- `IE` after reset: `draw_1`, either value (R22, R141). DESIGN CHOICE, safe (log 3). -/
opaque Config.resetIe : BitVec 1

/-- `TB_W`, the width of the table-base register (R23, D24): open, with no value here. That a `TB`
nothing has written reads as 0 is the unsafe choice of log 2. -/
opaque Config.tbW : Nat

/-- `EA_IDX` where the reference instance's is not meant: which index register is selected, then `X`, `Y`, `W`, `B`
(R40, D9). DESIGN CHOICE, safe (log 7). -/
opaque Config.eaIdx : IdxReg → BitVec 10 → BitVec 10 → Nibble → Nibble → DataAddr

/-- `LONG_TARGET(op, w2)` (R58, R112). DESIGN CHOICE, safe (log 7). -/
opaque Config.longTarget : OpWord → OpWord → ProgAddr

/-- `CALL_TARGET(op, w2)` (R58, R115). DESIGN CHOICE, safe (log 7). -/
opaque Config.callTarget : OpWord → OpWord → ProgAddr

/-- `BNZ_TARGET(op, pc0)` (R114). DESIGN CHOICE, safe (log 7). -/
opaque Config.bnzTarget : OpWord → ProgAddr → ProgAddr

/-- The registers a rule may read through `RegRead` (R74): all but `W`. What `TABLE_TARGET` and `LATCH_ARG` see. -/
structure RegView where
  a : Nibble
  b : Nibble
  x : BitVec 10
  y : BitVec 10
  c : BitVec 1
  tb : BitVec Config.tbW
deriving DecidableEq, Repr

/-- `TABLE_TARGET(op, state)`: of the readable registers and program memory (R113). DESIGN CHOICE, safe (log 7, 24). -/
opaque Config.tableTarget : OpWord → RegView → (ProgAddr → OpWord) → ProgAddr

/-- Where a `TABLE_TARGET` that may read `W` reads it (R113): `F_W_READ` there. DESIGN CHOICE, safe (log 24). -/
opaque Config.tableReadsW : OpWord → RegView → (ProgAddr → OpWord) → Bool

/-- `LATCH_ARG(k, op, state)`, coded as a number (R121). DESIGN CHOICE, safe (log 23). -/
opaque Config.latchArg : OpWord → OpWord → RegView → Nat

/-- Where a `LATCH_ARG` that may read `W` reads it (R121): `F_W_READ` there. DESIGN CHOICE, safe (log 23). -/
opaque Config.latchReadsW : OpWord → OpWord → RegView → Bool

/-- `STACK_LAYOUT` (R21): the cell of the stack window, by its offset from 0x3C0, and the bit of that cell that hold a
given bit of a given return-stack entry; none where no cell does (C8). No handler can observe it, and no rule reads it.
DESIGN CHOICE, safe (log 19). -/
opaque Config.stackLayout : Fin 64 → Fin 14 → Option (Fin 64 × Fin 4)

/-- The part of `COST(h, words)` above its least value (R80). DESIGN CHOICE, safe (log 15). -/
opaque Config.costAboveFetch : Dispatched → Nat → Nat

/-- `INT_COST` (R80, R130). DESIGN CHOICE, safe (log 15). -/
opaque Config.intCost : Nat

/-- `IDLE_COST` (R80). DESIGN CHOICE, safe (log 15). -/
opaque Config.idleCost : Nat

/-! ## Parameters that are plain data -/

/-- `ROM_WORDS`: 2048, 4096 or 8192 (R5). -/
inductive RomWords where
  | w2048 | w4096 | w8192
deriving DecidableEq, Repr, Inhabited

/-- `DIVIDER`: 4, 8 or 16 (R5). -/
inductive Divider where
  | d4 | d8 | d16
deriving DecidableEq, Repr, Inhabited

/-- The Variant Descriptor (R6); `divider = none` is `HAS_DIVIDER` false. No rule reads it. -/
structure Variant where
  romWords : RomWords
  ramCells : Nat
  divider : Option Divider
deriving DecidableEq, Repr, Inhabited

/-- An interval `[lo, hi]` of opcode words: `TW1` or `TW2` (R55). -/
structure OpRange where
  lo : OpWord
  hi : OpWord
deriving DecidableEq, Repr, Inhabited

/-- A run of data addresses that hold general RAM; `RAM_REGION` is a union of them (R36). -/
structure Region where
  base : Nat
  size : Nat
deriving DecidableEq, Repr, Inhabited

/-- A masked row of dispatch tier 1 or 2 (R61): it claims the opcodes with `op & mask = pattern`. -/
structure MaskRow where
  mask : OpWord
  pattern : OpWord
  handler : Handler
deriving DecidableEq, Repr, Inhabited

/-- An exact row of dispatch tier 3 (R61). -/
structure ExactRow where
  op : OpWord
  handler : Handler
deriving DecidableEq, Repr, Inhabited

/-- `DECODE` away from its fixed encodings, as the three tiers of R61, each evaluated first to last (R60). -/
structure DecodeMap where
  tier1 : List MaskRow
  tier2 : List MaskRow
  tier3 : List ExactRow
deriving DecidableEq, Repr, Inhabited

/-- Which function `EA_IDX` is (R40): the reference instance's zero extension (D45), or the uninterpreted one. -/
inductive EaRule where
  | zext
  | uninterpreted
deriving DecidableEq, Repr, Inhabited

/-- `SUB_CARRY`: what `C = 1` means in `SBC` (R97, C9). -/
inductive SubCarry where
  | borrow | carry
deriving DecidableEq, Repr, Inhabited

/-- `STACK_POLICY` (R78, R79, D3). -/
inductive StackPolicy where
  | saturate | refuse
deriving DecidableEq, Repr, Inhabited

/-- `SB_BASE`: a short branch's page is that of its own word or of the next one (R111). -/
inductive BranchBase where
  | this | next
deriving DecidableEq, Repr, Inhabited

/-- The form of `SHORT_TARGET` (R111): the offset is the `bits` bits of `op` from bit `lo` up. -/
structure ShortBranch where
  bits : Nat
  lo : Nat
  base : BranchBase
deriving DecidableEq, Repr, Inhabited

/-- `DAA_FN` or `DAS_FN` as a table (R100, R101). `low` answers the entries `A` in 0..9 at index `2*A + C`; `high`
answers `A` in 10..15 at index `2*(A-10) + C`, and its results are in 0..9: the one property the rules fix. -/
structure AdjustTable where
  low : Vector (Nibble × BitVec 1) 20
  high : Vector (Fin 10 × BitVec 1) 12
deriving DecidableEq, Repr

/-- The parameters of R5 that are plain data, with `IDX_W = 4 + idxExtra` (4 to 10, R17). -/
structure Params where
  variant : Variant
  tw1 : OpRange
  tw2 : OpRange
  decodeMap : DecodeMap
  idxExtra : Fin 7
  eaRule : EaRule
  ramRegion : List Region
  subCarry : SubCarry
  daa : AdjustTable
  das : AdjustTable
  btstSkipOn : BitVec 1
  shortBranch : ShortBranch
  vec0 : ProgAddr
  vec1 : ProgAddr
  resetPc : ProgAddr
  stackPolicy : StackPolicy
  /-- `LATCH_ARG` is of the kind that may read `W` (R121, log 23). -/
  latchMayReadW : Bool
  /-- `TABLE_TARGET` is of the kind that may read `W` (R113, log 24). -/
  tableMayReadW : Bool
deriving DecidableEq, Repr

/-! ## The instance the reset state holds: P0 (D45), and uninterpreted where D45 is symbolic (log 6) -/

/-- `ROM_WORDS` of the instance in the reset state: P0 names none. -/
opaque Config.romWords : RomWords

/-- The clock divider of the instance in the reset state: P0 names none. -/
opaque Config.divider : Option Divider

/-- `TW1` of the instance in the reset state: P0 is symbolic there. -/
opaque Config.tw1 : OpRange

/-- `TW2` of the instance in the reset state: P0 is symbolic there. -/
opaque Config.tw2 : OpRange

/-- `DECODE` of the instance in the reset state: P0 is symbolic there (N1: no listing exists). -/
opaque Config.decodeMap : DecodeMap

/-- The short-branch form of the instance in the reset state: P0 is symbolic there. -/
opaque Config.shortBranch : ShortBranch

/-- `VEC0` of the instance in the reset state: P0 is symbolic there. -/
opaque Config.vec0 : ProgAddr

/-- `VEC1` of the instance in the reset state: P0 is symbolic there. -/
opaque Config.vec1 : ProgAddr

/-- Whether `LATCH_ARG` of the instance in the reset state may read `W`: P0 is symbolic there. -/
opaque Config.latchMayReadW : Bool

/-- Whether `TABLE_TARGET` of the instance in the reset state may read `W`: P0 is symbolic there. -/
opaque Config.tableMayReadW : Bool

/-- P0's `DAA_FN` (R100, G2): `if a > 9 or c = 1 then ((a + 6) mod 16, 1) else (a, 0)`. -/
def AdjustTable.p0Daa : AdjustTable where
  low := #v[(0, 0), (6, 1), (1, 0), (7, 1), (2, 0), (8, 1), (3, 0), (9, 1), (4, 0), (10, 1),
    (5, 0), (11, 1), (6, 0), (12, 1), (7, 0), (13, 1), (8, 0), (14, 1), (9, 0), (15, 1)]
  high := #v[(0, 1), (0, 1), (1, 1), (1, 1), (2, 1), (2, 1), (3, 1), (3, 1), (4, 1), (4, 1), (5, 1), (5, 1)]

/-- P0's `DAS_FN` (R101, G2): `if a > 9 or c = 1 then ((a + 10) mod 16, 1) else (a, 0)`. -/
def AdjustTable.p0Das : AdjustTable where
  low := #v[(0, 0), (10, 1), (1, 0), (11, 1), (2, 0), (12, 1), (3, 0), (13, 1), (4, 0), (14, 1),
    (5, 0), (15, 1), (6, 0), (0, 1), (7, 0), (1, 1), (8, 0), (2, 1), (9, 0), (3, 1)]
  high := #v[(4, 1), (4, 1), (5, 1), (5, 1), (6, 1), (6, 1), (7, 1), (7, 1), (8, 1), (8, 1), (9, 1), (9, 1)]

/-- The reference instance P0 (D45): its stated values, and an uninterpreted constant where it is symbolic.
DESIGN CHOICE, unsafe: results about it are results about P0, not about the chip (log 6). -/
def Params.p0 : Params where
  variant := { romWords := Config.romWords, ramCells := 256, divider := Config.divider }
  tw1 := Config.tw1
  tw2 := Config.tw2
  decodeMap := Config.decodeMap
  idxExtra := 0
  eaRule := .zext
  ramRegion := [{ base := 0, size := 256 }]
  subCarry := .borrow
  daa := AdjustTable.p0Daa
  das := AdjustTable.p0Das
  btstSkipOn := 1
  shortBranch := Config.shortBranch
  vec0 := Config.vec0
  vec1 := Config.vec1
  resetPc := 0
  stackPolicy := .saturate
  latchMayReadW := Config.latchMayReadW
  tableMayReadW := Config.tableMayReadW

/-- `IDX_W`, the width of `X` and `Y`: 4 to 10 (R17, D10). -/
def Params.idxW (p : Params) : Nat := 4 + p.idxExtra.val

end Sys2Proof
end

