-- ==== Sys2Proof/Machine/Memory.lean ====
section
/-! DEFINITION. A store: (address, byte) pairs, addresses strictly rising. The data store and the program store of the
state are two of these; what an address that is not listed reads as is decided by the store's reader. -/

namespace Sys2Proof.Machine

/-- A store in its canonical form: see `Memory.sorted`. -/
abbrev Memory := List Host.Cell

/-- The byte listed at an address. -/
def Memory.read : Memory → Nat → Option (BitVec 8)
  | [], _ => none
  | (k, v) :: m, a => if k = a then some v else Memory.read m a

/-- List a byte at an address, in place of what is listed there. -/
def Memory.write : Memory → Nat → BitVec 8 → Memory
  | [], a, v => [(a, v)]
  | (k, u) :: m, a, v =>
    if a < k then (a, v) :: (k, u) :: m
    else if a = k then (a, v) :: m
    else (k, u) :: Memory.write m a v

/-- List nothing at an address. -/
def Memory.erase : Memory → Nat → Memory
  | [], _ => []
  | (k, u) :: m, a => if k = a then m else (k, u) :: Memory.erase m a

/-- The listed addresses strictly rise. -/
def Memory.sorted (m : Memory) : Bool :=
  decide ((m.map Prod.fst).Pairwise (fun a b => a < b))

/-- The canonical form of the data store: addresses of the data space (R33), strictly rising, each byte a 4-bit cell's
value (R34). An address that is not listed has no value (R25), so no entry can equal it. -/
def Memory.wf (m : Memory) : Bool :=
  m.sorted && m.all (fun e => decide (e.1 < 1024) && decide (e.2.toNat < 16))

/-- The canonical form of the program store: two bytes a word of the program space (R41), strictly rising, no byte
equal to the fill 0 that an unlisted one reads as (log 18). -/
def Memory.progWf (m : Memory) : Bool :=
  m.sorted && m.all (fun e => decide (e.1 < 32768) && decide (e.2 ≠ 0))

end Sys2Proof.Machine
end

