-- ==== Sys2Proof/Machine/State.lean ====
section
/-! DEFINITION. The state of the machine (10_state.md R13), why a step can stop, and the state after reset
(70_reset_and_hazards.md R141). -/

namespace Sys2Proof.Machine

/-- `RUN`, the state of the execution loop (R24). -/
inductive RunState where
  | fetching
  | halted
deriving DecidableEq, Repr, Inhabited

/-- Which instruction entered Halted (R119, R120). -/
inductive HaltKind where
  | standby
  | stop
deriving DecidableEq, Repr, Inhabited

/-- The events the host may observe (R11). -/
inductive Event where
  /-- Before each instruction's opcode fetch (R73). -/
  | trace (pc : ProgAddr)
  /-- An illegal opcode and its address (R122). -/
  | illegal (pc0 : ProgAddr) (op : OpWord)
  /-- A latch instruction (R121). -/
  | latch (k : OpWord) (arg : Nat)
  /-- Standby or stop entered (R119, R120). -/
  | halt (kind : HaltKind)
  /-- Halted left (R75). -/
  | wake
  /-- An interrupt acknowledged on a line (R130). -/
  | intAck (line : Bool)
deriving DecidableEq, Repr

/-- The host's inputs of one step: the two interrupt lines and the wake signal (R27, R75). -/
structure HostInput where
  int0 : Bool
  int1 : Bool
  wake : Bool
deriving DecidableEq, Repr, Inhabited

/-- All lines low. -/
def HostInput.quiet : HostInput where
  int0 := false
  int1 := false
  wake := false

/-- The reasons a step ends in a model fault (R10, R123). None is architectural: each marks a point where the
hardware's behaviour is undefined or unknown. All are safe: the model stops and nothing can be proved from there. -/
inductive Fault where
  /-- `F_UNDEF(M[ea])`: `memRead` of a RAM cell that nothing has written (R25, R38). Safe. -/
  | undefCell (ea : DataAddr)
  /-- `F_W_READ`: `readData` of the write-only register `W` as a data operand (R16, R74); `latchArg` and `tableTarget`
  where the parameter function reads `W` (R113, R121). Safe. -/
  | wRead
  /-- `F_STACK_WINDOW(ea)`: `memRead` or `memWrite` of an address in 0x3C0-0x3FF (R35, R38, R39). Safe. -/
  | stackWindow (ea : DataAddr)
  /-- `F_UNUSED_WRITE(ea)`: `memWrite` of an unused address (R37, R39). Safe. -/
  | unusedWrite (ea : DataAddr)
  /-- `F_STACK_OVERFLOW`: `push` onto a full stack where `STACK_POLICY = refuse` (R78). Safe. -/
  | stackOverflow
  /-- `F_STACK_UNDERFLOW`: `pop` of an empty stack where `STACK_POLICY = refuse` (R79). Safe. -/
  | stackUnderflow
deriving DecidableEq, Repr

/-- The reasons the model has no meaning for what was fetched. All are safe. -/
inductive Refusal where
  /-- `exec`: an instruction with no meaning yet, by the table's mnemonic. Safe. No arm gives it now. -/
  | notModelled (mnemonic : String)
  /-- `fetchExecute`: `DECODE` gives this opcode a handler that breaks the length rule; the model admits no such
  `DECODE` (R65, U9). Safe. -/
  | lengthRule (op : OpWord)
deriving DecidableEq, Repr

/-- The state (R13). `X` and `Y` are held in 10 bits and stay below `2^IDX_W` (`State.idxInRange`). The last four
fields and `par` are not the core's own state in the spec: the observation (R11), the cycle budget (R81), the step's
arguments (R27, R28) and the count of draws (R10). -/
structure State where
  /-- `A`, the accumulator (R14). -/
  a : Nibble
  /-- `B`, the secondary register (R15). -/
  b : Nibble
  /-- `W`, the working register, write-only (R16). -/
  w : Nibble
  /-- `X`, an index register (R17). -/
  x : BitVec 10
  /-- `Y`, an index register (R17). -/
  y : BitVec 10
  /-- `C`, the carry/status flag (R18). -/
  c : BitVec 1
  /-- `PC` (R19). -/
  pc : ProgAddr
  /-- `SP`, the number of live return-stack entries (R20). -/
  sp : Fin 65
  /-- `STK[0..63]` (R21). -/
  stk : Vector ProgAddr 64
  /-- `IE`, interrupt acceptance (R22). -/
  ie : BitVec 1
  /-- `TB`, the page/table-base register (R23). -/
  tb : BitVec Config.tbW
  /-- `RUN` (R24). -/
  run : RunState
  /-- `M`, the general RAM cells; an unlisted cell is `undef` (R25). -/
  ram : Memory
  /-- `PROG`, the program store, two bytes a word (R41, log 18). -/
  prog : Memory
  /-- The parameters that are plain data (R5, R28, log 5). -/
  par : Params
  /-- The host's inputs of the coming steps; all lines are low where the list has ended (R27, log 13). -/
  inputs : List HostInput
  /-- The observation, oldest event first (R11, log 14). -/
  events : List Event
  /-- The cycle budget left, below 0 after an overshoot (R81, log 15). -/
  budget : Int
  /-- How many free values have been drawn (R10, log 11). -/
  draws : Nat
deriving DecidableEq, Repr

/-- A core instance after reset (R141, R145): the parameters, the program image and the RAM contents are the host's.
`RUN`, `SP` and the empty stack are the spec's values, `PC` is `RESET_PC`, `IE` is the spec's draw; the spec gives the
other registers no value, and 0 is the model's choice. DESIGN CHOICE, unsafe (log 1, 2, 4). -/
def State.resetWith (p : Params) (prog ram : Memory) : State where
  a := 0
  b := 0
  w := 0
  x := 0
  y := 0
  c := 0
  pc := p.resetPc
  sp := 0
  stk := Vector.replicate 64 0
  ie := Config.resetIe
  tb := 0
  run := .fetching
  ram := ram
  prog := prog
  par := p
  inputs := []
  events := []
  budget := 0
  draws := 0

/-- The machine right after reset (R141): the reference instance, no program placed, no RAM cell given. -/
def State.reset : State :=
  State.resetWith Params.p0 [] []

end Sys2Proof.Machine
end

