-- ==== Sys2Proof/Machine/Flags.lean ====
section
/-! DEFINITION. The 4-bit arithmetic and its flag (43_arith_logic.md F2, R95-R101): the exact result in the naturals
or the integers, then the result modulo 16 and whether it lay outside 0..15. -/

namespace Sys2Proof.Machine

/-- A truth value as a bit. -/
def bit (b : Bool) : BitVec 1 :=
  if b then 1 else 0

/-- The exact sum of `ADD` (R95) and `ADC` (R96), narrowed: `(t mod 16, t >= 16)`. -/
def addNibbles (a b : Nibble) (carryIn : Nat) : Nibble × BitVec 1 :=
  let t := a.toNat + b.toNat + carryIn
  (BitVec.ofNat 4 t, bit (decide (16 ≤ t)))

/-- `SBC` with `C = 1` meaning a borrow (R97): `t = a - b - c` in the integers, `(t mod 16, t < 0)`. -/
def subBorrow (a b : Nibble) (c : BitVec 1) : Nibble × BitVec 1 :=
  let t : Int := (a.toNat : Int) - (b.toNat : Int) - (c.toNat : Int)
  (BitVec.ofInt 4 t, bit (decide (t < 0)))

/-- `SBC` with `C = 1` meaning no borrow, the complement adder (R97): `t = a + (15 - b) + c`. -/
def subComplement (a b : Nibble) (c : BitVec 1) : Nibble × BitVec 1 :=
  let t := a.toNat + (15 - b.toNat) + c.toNat
  (BitVec.ofNat 4 t, bit (decide (16 ≤ t)))

/-- `SBC` under the polarity `SUB_CARRY` (R97). -/
def subNibbles (pol : SubCarry) (a b : Nibble) (c : BitVec 1) : Nibble × BitVec 1 :=
  match pol with
  | .borrow => subBorrow a b c
  | .carry => subComplement a b c

/-- `INC` of a cell (R98): `t = v + 1`. -/
def incNibble (v : Nibble) : Nibble × BitVec 1 :=
  addNibbles v 0 1

/-- `DEC` of a cell (R99): `t = v - 1`. -/
def decNibble (v : Nibble) : Nibble × BitVec 1 :=
  subBorrow v 0 1

/-- `DAA_FN` or `DAS_FN` by its table (R100, R101). -/
def adjust (t : AdjustTable) (a : Nibble) (c : BitVec 1) : Nibble × BitVec 1 :=
  if h : a.toNat < 10 then
    t.low[2 * a.toNat + c.toNat]'(by have := c.isLt; omega)
  else
    let r := t.high[2 * (a.toNat - 10) + c.toNat]'(by have := a.isLt; have := c.isLt; omega)
    (BitVec.ofNat 4 r.1.val, r.2)

end Sys2Proof.Machine
end

