-- ==== Sys2Proof/Decode.lean ====
section
/-! DEFINITION. The length rule, the dispatcher, the decoder over words and bytes, and the encoder
(30_encoding.md R54-R67). The two encodings the spec fixes are code; every other opcode is answered by the
parameter `DECODE` (`Params.decodeMap`). -/

namespace Sys2Proof

/-! ## Lengths -/

/-- The opcodes the spec fixes: `0x230|i` is `LDI A,#i` (mask 0x3F0) and 0x244 is `BNZ` (mask 0x3FF) (R62, R63). -/
def isFixedOp (op : OpWord) : Bool :=
  op &&& 0x3F0#10 == 0x230#10 || op == 0x244#10

/-- `op` lies in the interval (R55). -/
def OpRange.contains (r : OpRange) (op : OpWord) : Bool :=
  decide (r.lo.toNat ≤ op.toNat) && decide (op.toNat ≤ r.hi.toNat)

/-- `TW(op)` (R55): the instruction has a second word. The fixed opcodes are one word (R64); an instance whose ranges
claim them is not admitted, and they stay one word here (log 9). -/
def tw (p : Params) (op : OpWord) : Bool :=
  !isFixedOp op && (p.tw1.contains op || p.tw2.contains op)

/-- The number of words of the instruction at `op` (R55, R67). -/
def wordCount (p : Params) (op : OpWord) : Nat :=
  if tw p op then 2 else 1

/-! ## Dispatch -/

/-- A masked row claims an opcode (R61). -/
def MaskRow.claims (r : MaskRow) (op : OpWord) : Bool :=
  op &&& r.mask == r.pattern

/-- The handler of an opcode that is not fixed (R60, R61): the earliest tier that claims it, within a tier the first
row; `ILLEGAL` where none does (R66). -/
def handlerAt (m : DecodeMap) (op : OpWord) : Handler :=
  match m.tier1.find? (fun r => r.claims op) with
  | some r => r.handler
  | none =>
    match m.tier2.find? (fun r => r.claims op) with
    | some r => r.handler
    | none =>
      match m.tier3.find? (fun r => r.op == op) with
      | some r => r.handler
      | none => .illegal

/-- `DECODE(op)` (R60): the two fixed encodings (R62, R63), else the row's handler. -/
def dispatch (m : DecodeMap) (op : OpWord) : Dispatched :=
  if op &&& 0x3F0#10 == 0x230#10 then .ldiA
  else if op == 0x244#10 then .bnz
  else .row (handlerAt m op)

/-- Every opcode word, in order. -/
def allOps : List OpWord :=
  (List.range 1024).map (BitVec.ofNat 10)

/-- Some opcode in the two-word ranges is `ILLEGAL` (R66). -/
def Params.twoWordIllegal (p : Params) : Bool :=
  allOps.any (fun op => tw p op && dispatch p.decodeMap op == .row .illegal)

/-- The mode reads its address from the second word (R57). -/
def MemMode.needsSecond : MemMode → Bool
  | .idx _ => false
  | .direct => true

/-- As `MemMode.needsSecond`, for a source operand. -/
def SrcMode.needsSecond : SrcMode → Bool
  | .imm => false
  | .mem m => m.needsSecond

/-- The lengths the length rule admits for a handler (R65): one word exactly, two exactly, or either. -/
inductive Length where
  | one | two | either
deriving DecidableEq, Repr

/-- Two words where a second word is needed, one where it is not. -/
def Length.ofNeeds (b : Bool) : Length :=
  if b then .two else .one

/-- The lengths R65 admits: the `(d)` forms and `BRL` are two words, `CALL` and `ILLEGAL` either, the rest one. -/
def Handler.length : Handler → Length
  | .mov _ => .one
  | .ldIdx _ _ => .one
  | .ldDir _ => .two
  | .stIdx _ _ => .one
  | .stDir _ => .two
  | .ldAuto _ _ _ => .one
  | .stAuto _ _ _ => .one
  | .ldiR _ => .one
  | .ldiX _ => .one
  | .add o => .ofNeeds o.needsSecond
  | .adc o => .ofNeeds o.needsSecond
  | .sbc o => .ofNeeds o.needsSecond
  | .incM m => .ofNeeds m.needsSecond
  | .decM m => .ofNeeds m.needsSecond
  | .daa => .one
  | .das => .one
  | .andA m => .ofNeeds m.needsSecond
  | .orA m => .ofNeeds m.needsSecond
  | .xorA m => .ofNeeds m.needsSecond
  | .skeq _ o => .ofNeeds o.needsSecond
  | .skne _ o => .ofNeeds o.needsSecond
  | .sklt _ o => .ofNeeds o.needsSecond
  | .bset _ m => .ofNeeds m.needsSecond
  | .bclr _ m => .ofNeeds m.needsSecond
  | .btst _ m => .ofNeeds m.needsSecond
  | .br => .one
  | .brl => .two
  | .brt => .one
  | .call => .either
  | .ret => .one
  | .reti => .one
  | .nop => .one
  | .stby => .one
  | .stop => .one
  | .latch _ => .one
  | .illegal => .either

/-- The handler may stand at an opcode whose `TW` is `two` (R65). -/
def Handler.lengthOk (h : Handler) (two : Bool) : Bool :=
  match h.length with
  | .one => !two
  | .two => two
  | .either => true

/-- The literal `i = op[3:0]` (R59). -/
def literal (op : OpWord) : Nibble :=
  op.setWidth 4

/-- The operand a mode and the second word give (R57). -/
def MemMode.operand (m : MemMode) (w2 : OpWord) : MemOp :=
  match m with
  | .idx i => .idx i
  | .direct => .direct w2

/-- The operand a mode, the opcode word and the second word give (R57, R59). -/
def SrcMode.operand (o : SrcMode) (op w2 : OpWord) : SrcOp :=
  match o with
  | .imm => .imm (literal op)
  | .mem m => .mem (m.operand w2)

/-- The instruction a handler stands for, with its literal and second word filled in (R60, R70). -/
def Handler.toInstr (h : Handler) (op w2 : OpWord) : Instr :=
  match h with
  | .mov p => .mov p
  | .ldIdx r i => .ldIdx r i
  | .ldDir r => .ldDir r w2
  | .stIdx r i => .stIdx r i
  | .stDir r => .stDir r w2
  | .ldAuto r i d => .ldAuto r i d
  | .stAuto r i d => .stAuto r i d
  | .ldiR r => .ldiR r (literal op)
  | .ldiX i => .ldiX i (literal op)
  | .add o => .add (o.operand op w2)
  | .adc o => .adc (o.operand op w2)
  | .sbc o => .sbc (o.operand op w2)
  | .incM m => .incM (m.operand w2)
  | .decM m => .decM (m.operand w2)
  | .daa => .daa
  | .das => .das
  | .andA m => .andA (m.operand w2)
  | .orA m => .orA (m.operand w2)
  | .xorA m => .xorA (m.operand w2)
  | .skeq r o => .skeq r (o.operand op w2)
  | .skne r o => .skne r (o.operand op w2)
  | .sklt r o => .sklt r (o.operand op w2)
  | .bset n m => .bset n (m.operand w2)
  | .bclr n m => .bclr n (m.operand w2)
  | .btst n m => .btst n (m.operand w2)
  | .br => .br op
  | .brl => .brl op w2
  | .brt => .brt op
  | .call => .call op w2
  | .ret => .ret
  | .reti => .reti
  | .nop => .nop
  | .stby => .stby
  | .stop => .stop
  | .latch k => .latch k op
  | .illegal => .illegal op

/-- Why the decoder refuses words. -/
inductive DecodeReject where
  /-- The map gives `op` a handler whose length disagrees with `TW(op)`: a `DECODE` the model does not admit (R65). -/
  | lengthRule (op : OpWord)
  /-- The words end before the instruction does. -/
  | truncated
deriving DecidableEq, Repr

/-- The instruction of an opcode word and the word after it (R60, R62, R63, R65). Where `TW(op)` is false the second
word is zero, whatever `w2` is (R55). -/
def decode (p : Params) (op w2 : OpWord) : Except DecodeReject Instr :=
  match dispatch p.decodeMap op with
  | .ldiA => .ok (.ldiA (literal op))
  | .bnz => .ok .bnz
  | .row h =>
    if h.lengthOk (tw p op) then .ok (h.toInstr op (if tw p op then w2 else 0)) else .error (.lengthRule op)

/-- The decoder over words: the instruction at the head, and the words after it (R54, R55). -/
def decodeWords (p : Params) : List OpWord → Except DecodeReject (Instr × List OpWord)
  | [] => .error .truncated
  | op :: rest =>
    if tw p op then
      match rest with
      | [] => .error .truncated
      | w2 :: rest' => (decode p op w2).map (fun i => (i, rest'))
    else (decode p op 0).map (fun i => (i, rest))

/-! ## Bytes

The program store's container of a word is 16 bits wide, its top 6 bits dropped on a read (R42, S1); it is held as
two bytes, the low one first. The core never sees a byte of program memory, so the order is not observable. DESIGN
CHOICE (log 18). -/

/-- The word in a container of two bytes: `PROG[a][9:0]` (R42). -/
def wordOfBytes (lo hi : BitVec 8) : OpWord :=
  (hi ++ lo).setWidth 10

/-- The low byte of a word's container. -/
def lowByte (w : OpWord) : BitVec 8 :=
  w.setWidth 8

/-- The high byte of a word's container: its top 6 bits are zero. -/
def highByte (w : OpWord) : BitVec 8 :=
  (w >>> 8).setWidth 8

/-- The words of a run of containers; a lone last byte is none. -/
def wordsOfBytes : List (BitVec 8) → List OpWord
  | lo :: hi :: rest => wordOfBytes lo hi :: wordsOfBytes rest
  | _ => []

/-- The containers of a run of words. -/
def bytesOfWords : List OpWord → List (BitVec 8)
  | [] => []
  | w :: ws => lowByte w :: highByte w :: bytesOfWords ws

/-- The decoder over bytes, total on any bytes. -/
def decodeBytes (p : Params) (bs : List (BitVec 8)) : Except DecodeReject (Instr × List OpWord) :=
  decodeWords p (wordsOfBytes bs)

/-! ## Encoding -/

/-- The second word of a memory operand (R57). -/
def MemOp.secondWord : MemOp → OpWord
  | .idx _ => 0
  | .direct d => d

/-- The second word of a source operand (R57). -/
def SrcOp.secondWord : SrcOp → OpWord
  | .imm _ => 0
  | .mem m => m.secondWord

/-- The second word of an instruction: a direct address, target bits, or 0 (R55, R57, R58). -/
def Instr.secondWord : Instr → OpWord
  | .mov _ => 0
  | .ldIdx _ _ => 0
  | .ldDir _ d => d
  | .stIdx _ _ => 0
  | .stDir _ d => d
  | .ldAuto _ _ _ => 0
  | .stAuto _ _ _ => 0
  | .ldiA _ => 0
  | .ldiR _ _ => 0
  | .ldiX _ _ => 0
  | .add o => o.secondWord
  | .adc o => o.secondWord
  | .sbc o => o.secondWord
  | .incM m => m.secondWord
  | .decM m => m.secondWord
  | .daa => 0
  | .das => 0
  | .andA m => m.secondWord
  | .orA m => m.secondWord
  | .xorA m => m.secondWord
  | .skeq _ o => o.secondWord
  | .skne _ o => o.secondWord
  | .sklt _ o => o.secondWord
  | .bset _ m => m.secondWord
  | .bclr _ m => m.secondWord
  | .btst _ m => m.secondWord
  | .br _ => 0
  | .brl _ w2 => w2
  | .brt _ => 0
  | .bnz => 0
  | .call _ w2 => w2
  | .ret => 0
  | .reti => 0
  | .nop => 0
  | .stby => 0
  | .stop => 0
  | .latch _ _ => 0
  | .illegal _ => 0

/-- The opcode word of the two schemas whose encoding the spec gives (R62, R63). -/
def fixedOpcode : Instr → Option OpWord
  | .ldiA n => some (0x230#10 ||| n.setWidth 10)
  | .bnz => some 0x244#10
  | _ => none

/-- `op` is an opcode word of `i` under the parameters. -/
def selects (p : Params) (i : Instr) (op : OpWord) : Bool :=
  match decode p op i.secondWord with
  | .ok j => j == i
  | .error _ => false

/-- The opcode word `DECODE` maps to `i` (95 Notation), the lowest where there are several; none where no opcode
selects it, as R31 says of combinations the hardware does not encode. -/
def opcodeOf (p : Params) (i : Instr) : Option OpWord :=
  match fixedOpcode i with
  | some op => some op
  | none => allOps.find? (selects p i)

/-- The words of an instruction that some opcode selects (R54-R58). -/
def encode (p : Params) (i : Instr) : Option (List OpWord) :=
  (opcodeOf p i).map (fun op => if tw p op then [op, i.secondWord] else [op])

/-! ## The host's question -/

/-- The words of an instruction given as one number: bits 9..0 are the first word, bits 19..10 the second; bits from
`nbits` up are 0 (log 31). -/
def wordsOfTable (nbits w : Nat) : List OpWord :=
  [BitVec.ofNat 10 (w % 2 ^ nbits), BitVec.ofNat 10 (w % 2 ^ nbits / 1024)]

/-- The instruction the decoder reads, under the reset state's parameters, from an instruction whose bits are `w`. -/
def decodeTableWord (nbits w : Nat) : Option Instr :=
  match decodeBytes Params.p0 (bytesOfWords (wordsOfTable nbits w)) with
  | .ok (i, _) => some i
  | .error _ => none

end Sys2Proof
end

