-- ==== Sys2Proof/Machine/Ops.lean ====
section
/-! DEFINITION. The named operations over the state: registers, events, draws, data and program memory, the return
stack, skip, interrupt acknowledge and the return from it (20_memory.md, 40_execution_cycle.md, 60_exceptions.md). -/

namespace Sys2Proof.Machine

/-- The outcome of a step of this machine (R10). -/
abbrev Result := Host.Outcome State Fault Refusal

/-- Go on with the value of an operation, or end in its fault. -/
def andThen {α : Type} (r : Except Fault α) (k : α → Result) : Result :=
  match r with
  | .ok v => k v
  | .error f => .fault f

/-! ## Events and draws -/

/-- `emit E` (R11). -/
def emit (s : State) (e : Event) : State :=
  { s with events := s.events ++ [e] }

/-- `C <- draw_1` (R18): the flag's value after this is not known. -/
def drawCarry (s : State) : State :=
  { s with c := Config.freeBit s.draws, draws := s.draws + 1 }

/-! ## Registers -/

/-- `RegRead` of a data register (R74): a read of `W` is `F_W_READ`. -/
def readData (r : DataReg) (s : State) : Except Fault Nibble :=
  match r with
  | .a => .ok s.a
  | .b => .ok s.b
  | .w => .error .wRead

/-- Write a data register. -/
def writeData (r : DataReg) (v : Nibble) (s : State) : State :=
  match r with
  | .a => { s with a := v }
  | .b => { s with b := v }
  | .w => { s with w := v }

/-- `RegRead` of an index register. -/
def readIdx (i : IdxReg) (s : State) : BitVec 10 :=
  match i with
  | .x => s.x
  | .y => s.y

/-- Write an index register. -/
def writeIdx (i : IdxReg) (v : BitVec 10) (s : State) : State :=
  match i with
  | .x => { s with x := v }
  | .y => { s with y := v }

/-- `val(RegRead(r))` of a compare operand: an index register's full width (R105, D47). -/
def readCmp (r : CmpReg) (s : State) : Nat :=
  match r with
  | .a => s.a.toNat
  | .b => s.b.toNat
  | .x => s.x.toNat
  | .y => s.y.toNat

/-- Auto-index: plus or minus one modulo `2^IDX_W` (R17, R90, R91). -/
def stepIdx (p : Params) (dir : Dir) (v : BitVec 10) : BitVec 10 :=
  match dir with
  | .inc => BitVec.ofNat 10 ((v.toNat + 1) % 2 ^ p.idxW)
  | .dec => BitVec.ofNat 10 ((v.toNat + 2 ^ p.idxW - 1) % 2 ^ p.idxW)

/-- Step the index register `i` (R90, R91). -/
def autoIdx (i : IdxReg) (dir : Dir) (s : State) : State :=
  writeIdx i (stepIdx s.par dir (readIdx i s)) s

/-- The registers `TABLE_TARGET` and `LATCH_ARG` may read (R113, R121). -/
def regView (s : State) : RegView :=
  { a := s.a, b := s.b, x := s.x, y := s.y, c := s.c, tb := s.tb }

/-- `LATCH_ARG(k, op, state)` (R121): a read of `W` among its reads is `F_W_READ` (log 23). -/
def latchArg (k op : OpWord) (s : State) : Except Fault Nat :=
  if s.par.latchMayReadW && Config.latchReadsW k op (regView s) then .error .wRead
  else .ok (Config.latchArg k op (regView s))

/-! ## Data memory -/

/-- `ea` is in `RAM_REGION`, which is disjoint from the stack window (R5, R36). -/
def inRam (p : Params) (ea : DataAddr) : Bool :=
  decide (ea.toNat < stackWindowBase) &&
    p.ramRegion.any (fun r => decide (r.base ≤ ea.toNat) && decide (ea.toNat < r.base + r.size))

/-- `ea` is in the stack window 0x3C0-0x3FF (R35). -/
def inStackWindow (ea : DataAddr) : Bool :=
  decide (stackWindowBase ≤ ea.toNat)

/-- `M[ea]`, `none` where it is `undef` (R25); bits [3:0] of what is stored (R34). -/
def readCell (s : State) (ea : DataAddr) : Option Nibble :=
  (s.ram.read ea.toNat).map (fun v => v.setWidth 4)

/-- `MemRead(ea, 1)` (R38). -/
def memRead (s : State) (ea : DataAddr) : Except Fault (Nibble × State) :=
  if inRam s.par ea then
    match readCell s ea with
    | some v => .ok (v, s)
    | none => .error (.undefCell ea)
  else if inStackWindow ea then .error (.stackWindow ea)
  else .ok (Config.freeNibble s.draws, { s with draws := s.draws + 1 })

/-- `MemWrite(ea, 1, v)` (R39); no more than 4 bits are written (R34). -/
def memWrite (s : State) (ea : DataAddr) (v : Nibble) : Except Fault State :=
  if inRam s.par ea then .ok { s with ram := s.ram.write ea.toNat (v.setWidth 8) }
  else if inStackWindow ea then .error (.stackWindow ea)
  else .error (.unusedWrite ea)

/-! ## Program memory -/

/-- The byte of the program store at a byte address; an unlisted one is the fill 0 (log 18). -/
def progByte (m : Memory) (a : Nat) : BitVec 8 :=
  (m.read a).getD 0

/-- `ProgRead(a)` (R42): the address is 14 bits by its type, the word is the container's bits [9:0]. -/
def progRead (m : Memory) (a : ProgAddr) : OpWord :=
  wordOfBytes (progByte m (2 * a.toNat)) (progByte m (2 * a.toNat + 1))

/-- `TABLE_TARGET(op, state)` (R113): a read of `W` among its reads is `F_W_READ` (log 24). -/
def tableTarget (op : OpWord) (s : State) : Except Fault ProgAddr :=
  if s.par.tableMayReadW && Config.tableReadsW op (regView s) (progRead s.prog) then .error .wRead
  else .ok (Config.tableTarget op (regView s) (progRead s.prog))

/-- Place a byte in the program store, in canonical form: the host's doing, no instruction's (R43). -/
def placeByte (m : Memory) (a : Nat) (v : BitVec 8) : Memory :=
  if v = 0 then m.erase a else m.write a v

/-- Place a word in the program store: the host's doing (R41, R145). -/
def placeWord (m : Memory) (a : ProgAddr) (w : OpWord) : Memory :=
  placeByte (placeByte m (2 * a.toNat) (lowByte w)) (2 * a.toNat + 1) (highByte w)

/-- `Fetch()` (R71): the word at `PC`, and the state with `PC` advanced modulo 16384. -/
def fetch (s : State) : OpWord × State :=
  (progRead s.prog s.pc, { s with pc := s.pc + 1 })

/-- `SkipNext()` (R77): pass over the whole next instruction. -/
def skipNext (s : State) : State :=
  { s with pc := s.pc + BitVec.ofNat 14 (wordCount s.par (progRead s.prog s.pc)) }

/-- `SkipNext()` where the condition holds (R105-R107, R110). -/
def skipIf (b : Bool) (s : State) : State :=
  if b then skipNext s else s

/-- `pc0`, the address of the opcode word of an instruction of `words` words whose fetch has just ended (R72). -/
def opAddr (words : Nat) (s : State) : ProgAddr :=
  s.pc - BitVec.ofNat 14 words

/-! ## The return stack -/

/-- `Push(a)` (R78). -/
def push (s : State) (a : ProgAddr) : Except Fault State :=
  if h : s.sp.val < 64 then
    .ok { s with stk := s.stk.set s.sp.val a h, sp := ⟨s.sp.val + 1, by omega⟩ }
  else
    match s.par.stackPolicy with
    | .saturate => .ok { s with stk := s.stk.set 63 a (by omega) }
    | .refuse => .error .stackOverflow

/-- `Pop()` (R79): the popped address, `none` where the stack was empty. -/
def pop (s : State) : Except Fault (Option ProgAddr × State) :=
  if h : 0 < s.sp.val then
    .ok (some (s.stk[s.sp.val - 1]'(by have := s.sp.isLt; omega)),
      { s with sp := ⟨s.sp.val - 1, by have := s.sp.isLt; omega⟩ })
  else
    match s.par.stackPolicy with
    | .saturate => .ok (none, s)
    | .refuse => .error .stackUnderflow

/-- `PC <- a`, or nothing where the pop found the stack empty (R79, R116, R117). -/
def jumpIf (a : Option ProgAddr) (s : State) : State :=
  match a with
  | some t => { s with pc := t }
  | none => s

/-! ## Interrupt acknowledge, and the return -/

/-- `VEC_k` (R130): line 1 is `true`. -/
def vector (p : Params) (line : Bool) : ProgAddr :=
  if line then p.vec1 else p.vec0

/-- `InterruptAck(k)` (R130): only the return address is saved. -/
def interruptAck (line : Bool) (s : State) : Except Fault State :=
  (push s s.pc).map (fun t => emit { t with ie := 0, pc := vector s.par line } (.intAck line))

/-- Return to the popped address (R116); an empty stack under `saturate` is a no-op. -/
def returnTo (s : State) : Except Fault State :=
  (pop s).map (fun r => jumpIf r.1 r.2)

/-- Return from interrupt (R117, R132): return, then `IE <- 1`. -/
def returnFromInterrupt (s : State) : Except Fault State :=
  (returnTo s).map (fun t => { t with ie := 1 })

end Sys2Proof.Machine
end

