-- ==== Sys2Proof/Machine/Operands.lean ====
section
/-! DEFINITION. The operand forms (20_memory.md R40; 40_execution_cycle.md R74). -/

namespace Sys2Proof.Machine

/-- `EA_IDX(i, state)` (R40): the reference instance's zero extension (D45), or the uninterpreted function. -/
def eaIdx (i : IdxReg) (s : State) : DataAddr :=
  match s.par.eaRule with
  | .zext => readIdx i s
  | .uninterpreted => Config.eaIdx i s.x s.y s.w s.b

/-- `EA(m)` (R74). -/
def ea (m : MemOp) (s : State) : DataAddr :=
  match m with
  | .idx i => eaIdx i s
  | .direct d => d

/-- `MemRead(EA(m), 1)`. -/
def readMem (m : MemOp) (s : State) : Except Fault (Nibble × State) :=
  memRead s (ea m s)

/-- `Src(s)` (R74). -/
def readSrc (o : SrcOp) (s : State) : Except Fault (Nibble × State) :=
  match o with
  | .imm n => .ok (n, s)
  | .mem m => readMem m s

end Sys2Proof.Machine
end

