-- ==== Sys2Proof/Machine/ArithLogic.lean ====
section
/-! DEFINITION. The Arithmetic/Logic family (43_arith_logic.md R95-R104). -/

namespace Sys2Proof.Machine

/-- `A` and `C` take a result and its flag. -/
def setAC (r : Nibble × BitVec 1) (s : State) : State :=
  { s with a := r.1, c := r.2 }

/-- Read a source operand, then write `A` and `C` from `A`, the operand and the old `C`. -/
def arithmetic (f : Nibble → Nibble → BitVec 1 → Nibble × BitVec 1) (o : SrcOp) (s : State) : Result :=
  andThen (readSrc o s) (fun q => .next (setAC (f s.a q.1 s.c) q.2))

/-- Read a cell, write it back changed, with the flag in `C`; the address is found once. -/
def modifyCell (f : Nibble → Nibble × BitVec 1) (m : MemOp) (s : State) : Result :=
  andThen (readMem m s) (fun q =>
    andThen (memWrite q.2 (ea m s) (f q.1).1) (fun t => .next { t with c := (f q.1).2 }))

/-- `A <- f(A, cell); C <- draw_1` (R102-R104). -/
def logic (f : Nibble → Nibble → Nibble) (m : MemOp) (s : State) : Result :=
  andThen (readMem m s) (fun q => .next (drawCarry { q.2 with a := f s.a q.1 }))

/-- `ADD A,s` (R95): the old `C` is not read. -/
def execAdd (o : SrcOp) (s : State) : Result :=
  arithmetic (fun a b _ => addNibbles a b 0) o s

/-- `ADC A,s` (R96). -/
def execAdc (o : SrcOp) (s : State) : Result :=
  arithmetic (fun a b c => addNibbles a b c.toNat) o s

/-- `SBC A,s` (R97), under the polarity `SUB_CARRY`. -/
def execSbc (o : SrcOp) (s : State) : Result :=
  arithmetic (subNibbles s.par.subCarry) o s

/-- `INC m` (R98). -/
def execIncM (m : MemOp) (s : State) : Result :=
  modifyCell incNibble m s

/-- `DEC m` (R99). -/
def execDecM (m : MemOp) (s : State) : Result :=
  modifyCell decNibble m s

/-- `DAA` (R100). -/
def execDaa (s : State) : Result :=
  .next (setAC (adjust s.par.daa s.a s.c) s)

/-- `DAS` (R101). -/
def execDas (s : State) : Result :=
  .next (setAC (adjust s.par.das s.a s.c) s)

/-- `AND A,m` (R102). -/
def execAndA (m : MemOp) (s : State) : Result :=
  logic (fun a v => a &&& v) m s

/-- `OR A,m` (R103). -/
def execOrA (m : MemOp) (s : State) : Result :=
  logic (fun a v => a ||| v) m s

/-- `XOR A,m` (R104). -/
def execXorA (m : MemOp) (s : State) : Result :=
  logic (fun a v => a ^^^ v) m s

end Sys2Proof.Machine
end

