-- ==== Sys2Proof/Machine/BitOps.lean ====
section
/-! DEFINITION. The Bit Test/Set/Reset in Memory family (45_bit_ops.md R108-R110). -/

namespace Sys2Proof.Machine

/-- `1 << n`, bit 0 the least significant (R7, R59). -/
def bitMask (n : Fin 4) : Nibble :=
  1#4 <<< n.val

/-- Read a cell and write it back changed; `C` is unchanged. -/
def rewriteCell (f : Nibble → Nibble) (m : MemOp) (s : State) : Result :=
  andThen (readMem m s) (fun q => andThen (memWrite q.2 (ea m s) (f q.1)) .next)

/-- `BSET n,m` (R108). -/
def execBset (n : Fin 4) (m : MemOp) (s : State) : Result :=
  rewriteCell (fun v => v ||| bitMask n) m s

/-- `BCLR n,m` (R109). -/
def execBclr (n : Fin 4) (m : MemOp) (s : State) : Result :=
  rewriteCell (fun v => v &&& ~~~ bitMask n) m s

/-- `BTST n,m` (R110): `C <- draw_1`, skip where bit `n` is `BTST_SKIP_ON`. -/
def execBtst (n : Fin 4) (m : MemOp) (s : State) : Result :=
  andThen (readMem m s) (fun q =>
    .next (skipIf (q.1.extractLsb' n.val 1 == s.par.btstSkipOn) (drawCarry q.2)))

end Sys2Proof.Machine
end

