-- ==== Sys2Proof/Machine/CompareSkip.lean ====
section
/-! DEFINITION. The Compare-and-Skip family (44_compare_skip.md R105-R107). -/

namespace Sys2Proof.Machine

/-- Compare a register with a source operand as unsigned numbers, `C <- draw_1`, skip where the relation holds. -/
def compareSkip (rel : Nat → Nat → Bool) (r : CmpReg) (o : SrcOp) (s : State) : Result :=
  andThen (readSrc o s) (fun q => .next (skipIf (rel (readCmp r s) q.1.toNat) (drawCarry q.2)))

/-- `SKEQ r,s` (R105). -/
def execSkeq (r : CmpReg) (o : SrcOp) (s : State) : Result :=
  compareSkip (fun a b => decide (a = b)) r o s

/-- `SKNE r,s` (R106). -/
def execSkne (r : CmpReg) (o : SrcOp) (s : State) : Result :=
  compareSkip (fun a b => decide (a ≠ b)) r o s

/-- `SKLT r,s` (R107): the register less than the operand. -/
def execSklt (r : CmpReg) (o : SrcOp) (s : State) : Result :=
  compareSkip (fun a b => decide (a < b)) r o s

end Sys2Proof.Machine
end

