-- ==== Sys2Proof/Machine/ControlTransfer.lean ====
section
/-! DEFINITION. The Control Transfer family (46_control_transfer.md R111-R117). -/

namespace Sys2Proof.Machine

/-- `SHORT_TARGET(op, pc0)` (R111): the page of `base`, with the offset field in its low bits. -/
def shortTarget (sb : ShortBranch) (op : OpWord) (pc0 : ProgAddr) : ProgAddr :=
  let base := match sb.base with
    | .this => pc0
    | .next => pc0 + 1
  let mask := BitVec.ofNat 14 (2 ^ sb.bits - 1)
  (base &&& ~~~ mask) ||| ((op >>> sb.lo).setWidth 14 &&& mask)

/-- `BR a` (R111): one word, so `pc0` is the word before `PC`. -/
def execBr (op : OpWord) (s : State) : Result :=
  .next { s with pc := shortTarget s.par.shortBranch op (opAddr 1 s) }

/-- `BRL a` (R112). -/
def execBrl (op w2 : OpWord) (s : State) : Result :=
  .next { s with pc := Config.longTarget op w2 }

/-- `BRT` (R113). -/
def execBrt (op : OpWord) (s : State) : Result :=
  andThen (tableTarget op s) (fun a => .next { s with pc := a })

/-- `BNZ a` (R114): the opcode is 0x244, one word. -/
def execBnz (s : State) : Result :=
  if s.a = 0 then .next s
  else .next { s with pc := Config.bnzTarget 0x244 (opAddr 1 s) }

/-- `CALL a` (R115): the return address is that after the last word. -/
def execCall (op w2 : OpWord) (s : State) : Result :=
  andThen (push s s.pc) (fun t => .next { t with pc := Config.callTarget op w2 })

/-- `RET` (R116). -/
def execRet (s : State) : Result :=
  andThen (returnTo s) .next

/-- `RETI` (R117). -/
def execReti (s : State) : Result :=
  andThen (returnFromInterrupt s) .next

end Sys2Proof.Machine
end

