-- ==== Sys2Proof/Machine/ImmediateLoad.lean ====
section
/-! DEFINITION. The Immediate Load family (42_immediate_load.md R92-R94). -/

namespace Sys2Proof.Machine

/-- `LDI A,#i` (R92). -/
def execLdiA (n : Nibble) (s : State) : Result :=
  .next (writeData .a n s)

/-- `LDI r,#i`, `r` in B, W (R93). -/
def execLdiR (r : LdiReg) (n : Nibble) (s : State) : Result :=
  match r with
  | .b => .next (writeData .b n s)
  | .w => .next (writeData .w n s)

/-- `LDI x,#i` (R94): the literal is zero-extended to `IDX_W` bits. -/
def execLdiX (i : IdxReg) (n : Nibble) (s : State) : Result :=
  .next (writeIdx i (n.setWidth 10) s)

end Sys2Proof.Machine
end

