-- ==== Sys2Proof/Machine/LoadMove.lean ====
section
/-! DEFINITION. The Load/Move family (41_load_move.md R85-R91). `exec` runs after the fetches, so `PC` already points
past the instruction (R72). -/

namespace Sys2Proof.Machine

/-- `v <- MemRead(ea, 1); r <- v`. -/
def loadFrom (r : DataReg) (ea : DataAddr) (s : State) : Except Fault State :=
  (memRead s ea).map (fun q => writeData r q.1 q.2)

/-- `v <- RegRead(r); MemWrite(ea, 1, v)`. -/
def storeTo (r : DataReg) (ea : DataAddr) (s : State) : Except Fault State :=
  (readData r s).bind (fun v => memWrite s ea v)

/-- `MOV rd,rs` (R85). -/
def execMov (p : MovPair) (s : State) : Result :=
  match p with
  | .ab => andThen (readData .b s) (fun v => .next (writeData .a v s))
  | .ba => andThen (readData .a s) (fun v => .next (writeData .b v s))
  | .wa => andThen (readData .a s) (fun v => .next (writeData .w v s))
  | .aw => andThen (readData .w s) (fun v => .next (writeData .a v s))

/-- `LD r,(i)` (R86). -/
def execLdIdx (r : DataReg) (i : IdxReg) (s : State) : Result :=
  andThen (loadFrom r (eaIdx i s) s) .next

/-- `LD r,(d)` (R87). -/
def execLdDir (r : DataReg) (d : DataAddr) (s : State) : Result :=
  andThen (loadFrom r d s) .next

/-- `ST r,(i)` (R88). -/
def execStIdx (r : DataReg) (i : IdxReg) (s : State) : Result :=
  andThen (storeTo r (eaIdx i s) s) .next

/-- `ST r,(d)` (R89). -/
def execStDir (r : DataReg) (d : DataAddr) (s : State) : Result :=
  andThen (storeTo r d s) .next

/-- `LD r,(i+)`, `LD r,(i-)` (R90): the access uses the old index. -/
def execLdAuto (r : DataReg) (i : IdxReg) (dir : Dir) (s : State) : Result :=
  andThen (loadFrom r (eaIdx i s) s) (fun t => .next (autoIdx i dir t))

/-- `ST r,(i+)`, `ST r,(i-)` (R91): the access uses the old index. -/
def execStAuto (r : DataReg) (i : IdxReg) (dir : Dir) (s : State) : Result :=
  andThen (storeTo r (eaIdx i s) s) (fun t => .next (autoIdx i dir t))

end Sys2Proof.Machine
end

