-- ==== Sys2Proof/Machine/ModeControl.lean ====
section
/-! DEFINITION. Mode Control, the no-op and the illegal opcode (47_mode_control.md R118-R122). -/

namespace Sys2Proof.Machine

/-- `RUN <- Halted; emit Halt(kind)`. -/
def haltWith (kind : HaltKind) (s : State) : State :=
  emit { s with run := .halted } (.halt kind)

/-- `NOP` (R118). -/
def execNop (s : State) : Result :=
  .next s

/-- `STBY` (R119). -/
def execStby (s : State) : Result :=
  .next (haltWith .standby s)

/-- `STOP` (R120). -/
def execStop (s : State) : Result :=
  .next (haltWith .stop s)

/-- `LATCH k` (R121): the host receives the event, nothing comes back. -/
def execLatch (k op : OpWord) (s : State) : Result :=
  andThen (latchArg k op s) (fun arg => .next (emit s (.latch k arg)))

/-- `ILLEGAL` (R122): one word or two (R66), so `pc0` is that many words before `PC`. -/
def execIllegal (op : OpWord) (s : State) : Result :=
  .next (emit s (.illegal (opAddr (wordCount s.par op) s) op))

end Sys2Proof.Machine
end

