-- ==== Sys2Proof/Machine/Dispatch.lean ====
section
/-! DEFINITION. One arm per instruction: its meaning, run after its fetches (40_execution_cycle.md R72). -/

namespace Sys2Proof.Machine

def exec (i : Instr) (s : State) : Host.Outcome State Fault Refusal :=
  match i with
  | .mov p => Sys2Proof.Machine.execMov p s
  | .ldIdx r j => Sys2Proof.Machine.execLdIdx r j s
  | .ldDir r d => Sys2Proof.Machine.execLdDir r d s
  | .stIdx r j => Sys2Proof.Machine.execStIdx r j s
  | .stDir r d => Sys2Proof.Machine.execStDir r d s
  | .ldAuto r j dir => Sys2Proof.Machine.execLdAuto r j dir s
  | .stAuto r j dir => Sys2Proof.Machine.execStAuto r j dir s
  | .ldiA n => Sys2Proof.Machine.execLdiA n s
  | .ldiR r n => Sys2Proof.Machine.execLdiR r n s
  | .ldiX j n => Sys2Proof.Machine.execLdiX j n s
  | .add o => Sys2Proof.Machine.execAdd o s
  | .adc o => Sys2Proof.Machine.execAdc o s
  | .sbc o => Sys2Proof.Machine.execSbc o s
  | .incM m => Sys2Proof.Machine.execIncM m s
  | .decM m => Sys2Proof.Machine.execDecM m s
  | .daa => Sys2Proof.Machine.execDaa s
  | .das => Sys2Proof.Machine.execDas s
  | .andA m => Sys2Proof.Machine.execAndA m s
  | .orA m => Sys2Proof.Machine.execOrA m s
  | .xorA m => Sys2Proof.Machine.execXorA m s
  | .skeq r o => Sys2Proof.Machine.execSkeq r o s
  | .skne r o => Sys2Proof.Machine.execSkne r o s
  | .sklt r o => Sys2Proof.Machine.execSklt r o s
  | .bset n m => Sys2Proof.Machine.execBset n m s
  | .bclr n m => Sys2Proof.Machine.execBclr n m s
  | .btst n m => Sys2Proof.Machine.execBtst n m s
  | .br op => Sys2Proof.Machine.execBr op s
  | .brl op w2 => Sys2Proof.Machine.execBrl op w2 s
  | .brt op => Sys2Proof.Machine.execBrt op s
  | .bnz => Sys2Proof.Machine.execBnz s
  | .call op w2 => Sys2Proof.Machine.execCall op w2 s
  | .ret => Sys2Proof.Machine.execRet s
  | .reti => Sys2Proof.Machine.execReti s
  | .nop => Sys2Proof.Machine.execNop s
  | .stby => Sys2Proof.Machine.execStby s
  | .stop => Sys2Proof.Machine.execStop s
  | .latch k op => Sys2Proof.Machine.execLatch k op s
  | .illegal op => Sys2Proof.Machine.execIllegal op s

end Sys2Proof.Machine
end

