-- ==== Sys2Proof/Machine/Loop.lean ====
section
/-! DEFINITION. The execution loop (40_execution_cycle.md R72, R75, R80; 60_exceptions.md R129, R130): what one step
does around the meaning of an instruction. -/

namespace Sys2Proof.Machine

/-! ## Cycle costs -/

/-- `COST(NOP, 1)` (R80, R118): at least its one fetch, and at least two cycles where some opcode is a two-word
`ILLEGAL`, which costs the same and fetches two words (R80, R122, log 15). -/
def nopCost (p : Params) : Nat :=
  (if p.twoWordIllegal then 2 else 1) + Config.costAboveFetch (.row .nop) 1

/-- `COST(h, words)` (R80): at least the cycles of the fetches; `ILLEGAL` costs `COST(NOP, 1)`, of either length (R118,
R122). -/
def cost (p : Params) (h : Dispatched) (words : Nat) : Nat :=
  if h == .row .nop || h == .row .illegal then nopCost p else words + Config.costAboveFetch h words

/-- Take a cost from the budget (R81). -/
def charge (n : Nat) (s : State) : State :=
  { s with budget := s.budget - n }

/-! ## Host inputs -/

/-- The host's inputs of this step; all lines are low where the list has ended (R27, log 13). -/
def hostInput (s : State) : HostInput :=
  s.inputs.headD HostInput.quiet

/-- The state with this step's inputs taken. -/
def takeInput (s : State) : State :=
  { s with inputs := s.inputs.tail }

/-- A pending interrupt may be acknowledged: a line is high and `IE = 1` (R75, R128). -/
def interruptDue (inp : HostInput) (s : State) : Bool :=
  (inp.int0 || inp.int1) && s.ie == 1#1

/-- "Any line that is high, either one if both are" (R75, R129): the line (`true` is line 1), drawn where both are. -/
def chooseLine (inp : HostInput) (s : State) : Bool × State :=
  if inp.int0 && inp.int1 then (Config.freeBit s.draws == 1#1, { s with draws := s.draws + 1 })
  else (inp.int1, s)

/-! ## The three kinds of step -/

/-- A step while Halted (R75): `WAKE` returns the loop to Fetching, and no instruction runs. -/
def haltedStep (inp : HostInput) (s : State) : State :=
  charge Config.idleCost (if inp.wake then emit { s with run := .fetching } .wake else s)

/-- A step that acknowledges an interrupt (R75, R130); no `Trace` (R73). -/
def ackStep (inp : HostInput) (s : State) : Result :=
  let q := chooseLine inp s
  andThen (interruptAck q.1 q.2) (fun t => .next (charge Config.intCost t))

/-- The opcode word at `PC`, its second word or 0, and the state after the fetches (R55, R72). -/
def fetchInstr (s : State) : OpWord × OpWord × State :=
  let f := fetch s
  if tw s.par f.1 then (f.1, (fetch f.2).1, (fetch f.2).2) else (f.1, 0, f.2)

/-- Take the cost of a completed instruction. -/
def chargeNext (n : Nat) (r : Result) : Result :=
  match r with
  | .next t => .next (charge n t)
  | .fault f => .fault f
  | .refused q => .refused q

/-- `FetchExecute()` (R72): the fetches, dispatch, the meaning. A `DECODE` that breaks the length rule at this opcode
is refused (R65). -/
def fetchExecute (s : State) : Result :=
  let f := fetchInstr s
  match decode s.par f.1 f.2.1 with
  | .ok i => chargeNext (cost s.par (dispatch s.par.decodeMap f.1) (wordCount s.par f.1)) (exec i f.2.2)
  | .error _ => .refused (.lengthRule f.1)

/-- One step (R75): idle or wake while Halted, else an interrupt, else the next instruction after its `Trace`
(R73, R129). -/
def loopStep (s : State) : Result :=
  let inp := hostInput s
  let t := takeInput s
  match s.run with
  | .halted => .next (haltedStep inp t)
  | .fetching =>
    if interruptDue inp t then ackStep inp t
    else fetchExecute (emit t (.trace t.pc))

/-- `Run(n)` (R81), over at most `fuel` steps: step while the budget is above 0. -/
def runWhile (f : State → Result) : Nat → State → Result
  | 0, s => .next s
  | fuel + 1, s =>
    if 0 < s.budget then
      match f s with
      | .next t => runWhile f fuel t
      | .fault r => .fault r
      | .refused r => .refused r
    else .next s

/-- Put an instruction's words where the next fetch reads, and have the next step fetch: Fetching, all lines low for
that step (log 18). -/
def placeInstr (s : State) (ws : List OpWord) : State :=
  { s with
    prog := (ws.foldl (fun q w => (placeWord q.1 q.2 w, q.2 + 1)) (s.prog, s.pc)).1
    run := .fetching
    inputs := HostInput.quiet :: s.inputs }

end Sys2Proof.Machine
end

