-- ==== Sys2Proof/Machine/Step.lean ====
section
/-! DEFINITION. The step, the budgeted run, and the placing of one instruction for the host's question. -/

namespace Sys2Proof.Machine

/-- One step of the machine (40_execution_cycle.md R75). -/
def step (s : State) : Host.Outcome State Fault Refusal :=
  loopStep s

/-- `Run(n)` (R81): grant `n` cycles and step while the budget is above 0, over at most `fuel` steps. -/
def runBudget (fuel : Nat) (n : Nat) (s : State) : Host.Outcome State Fault Refusal :=
  runWhile step fuel { s with budget := n }

/-- The state with the instruction whose bits are `w` (numbered as `decodeTableWord` numbers them) placed at `PC`, and
the next step fetching it. -/
def State.withFetchWord (s : State) (nbits w : Nat) : State :=
  placeInstr s (wordsOfTable nbits w)

end Sys2Proof.Machine
end

