-- ==== Sys2Proof/WellFormed.lean ====
section
/-! DEFINITION. Well-formedness: of an instruction under given parameters, and of the parameters themselves
(30_encoding.md R62-R66; 00_scope.md R5). -/

namespace Sys2Proof

/-- An instruction that carries its opcode word carries one of its own kind: not a fixed opcode (R62, R63), of the
length its schema has (R65), and a one-word `CALL` has second word 0 (R55). Every other operand is legal by its
type (R31, R85, R93, R105, R108). -/
def Instr.wf (p : Params) : Instr → Bool
  | .mov _ => true
  | .ldIdx _ _ => true
  | .ldDir _ _ => true
  | .stIdx _ _ => true
  | .stDir _ _ => true
  | .ldAuto _ _ _ => true
  | .stAuto _ _ _ => true
  | .ldiA _ => true
  | .ldiR _ _ => true
  | .ldiX _ _ => true
  | .add _ => true
  | .adc _ => true
  | .sbc _ => true
  | .incM _ => true
  | .decM _ => true
  | .daa => true
  | .das => true
  | .andA _ => true
  | .orA _ => true
  | .xorA _ => true
  | .skeq _ _ => true
  | .skne _ _ => true
  | .sklt _ _ => true
  | .bset _ _ => true
  | .bclr _ _ => true
  | .btst _ _ => true
  | .br op => !isFixedOp op && !tw p op
  | .brl op _ => tw p op
  | .brt op => !isFixedOp op && !tw p op
  | .bnz => true
  | .call op w2 => !isFixedOp op && (tw p op || w2 == 0)
  | .ret => true
  | .reti => true
  | .nop => true
  | .stby => true
  | .stop => true
  | .latch _ op => !isFixedOp op && !tw p op
  | .illegal op => !isFixedOp op

/-- The fixed opcodes: `0x230|i` and 0x244 (R62, R63). -/
def fixedOps : List OpWord :=
  [0x230, 0x231, 0x232, 0x233, 0x234, 0x235, 0x236, 0x237, 0x238, 0x239, 0x23A, 0x23B, 0x23C, 0x23D, 0x23E, 0x23F,
    0x244]

/-- No range claims a fixed opcode: they are one word (R64). -/
def Params.rangesOk (p : Params) : Bool :=
  fixedOps.all (fun op => !p.tw1.contains op && !p.tw2.contains op)

/-- No row of any tier claims a fixed opcode for another handler (R62, R63). -/
def Params.fixedOk (p : Params) : Bool :=
  fixedOps.all (fun op =>
    !p.decodeMap.tier1.any (fun r => r.claims op) && !p.decodeMap.tier2.any (fun r => r.claims op) &&
      !p.decodeMap.tier3.any (fun r => r.op == op))

/-- Every exact row obeys the length rule (R65). -/
def Params.tier3LengthOk (p : Params) : Bool :=
  p.decodeMap.tier3.all (fun r => r.handler.lengthOk (tw p r.op))

/-- The regions of general RAM lie below the stack window, and hold `RAM_CELLS` cells (R5, R36). -/
def Params.ramOk (p : Params) : Bool :=
  p.ramRegion.all (fun r => decide (r.base + r.size ≤ stackWindowBase)) &&
    decide (((List.range 1024).filter
      (fun ea => p.ramRegion.any (fun r => decide (r.base ≤ ea) && decide (ea < r.base + r.size)))).length
        = p.variant.ramCells)

/-- The short-branch offset is a field of a 10-bit opcode word (R111). -/
def Params.shortBranchOk (p : Params) : Bool :=
  decide (p.shortBranch.lo + p.shortBranch.bits ≤ 10)

/-- The conditions the rules put on an instance of the parameters, as far as a check of its rows shows them; the rest
of R65 is checked where an opcode is dispatched (`decode`). No step reads this. -/
def Params.admissible (p : Params) : Bool :=
  p.rangesOk && p.fixedOk && p.tier3LengthOk && p.ramOk && p.shortBranchOk

end Sys2Proof
end

