-- ==== Sys2Proof/Safety.lean ====
section
/-! DEFINITION. The terms claims are stated in: the invariant of the state, which instructions the rules name as
writers of a piece of state, and where an instruction stores. -/

namespace Sys2Proof

/-! ## What the words of an instruction say (R56-R60)

An instruction is its schema with its other operand fields, its literal, its opcode word where it keeps it, and its second
word (`Instr.secondWord`): these four determine it. -/

/-- The mode of a memory operand. -/
def MemOp.mode : MemOp → MemMode
  | .idx i => .idx i
  | .direct _ => .direct

/-- The mode of a source operand. -/
def SrcOp.mode : SrcOp → SrcMode
  | .imm _ => .imm
  | .mem m => .mem m.mode

/-- The literal of a source operand. -/
def SrcOp.literal : SrcOp → Option Nibble
  | .imm n => some n
  | .mem _ => none

/-- The schema of an instruction with its operand fields, less the literal and the second word (R60, R70). -/
def Instr.schema : Instr → Dispatched
  | .mov p => .row (.mov p)
  | .ldIdx r i => .row (.ldIdx r i)
  | .ldDir r _ => .row (.ldDir r)
  | .stIdx r i => .row (.stIdx r i)
  | .stDir r _ => .row (.stDir r)
  | .ldAuto r i d => .row (.ldAuto r i d)
  | .stAuto r i d => .row (.stAuto r i d)
  | .ldiA _ => .ldiA
  | .ldiR r _ => .row (.ldiR r)
  | .ldiX i _ => .row (.ldiX i)
  | .add o => .row (.add o.mode)
  | .adc o => .row (.adc o.mode)
  | .sbc o => .row (.sbc o.mode)
  | .incM m => .row (.incM m.mode)
  | .decM m => .row (.decM m.mode)
  | .daa => .row .daa
  | .das => .row .das
  | .andA m => .row (.andA m.mode)
  | .orA m => .row (.orA m.mode)
  | .xorA m => .row (.xorA m.mode)
  | .skeq r o => .row (.skeq r o.mode)
  | .skne r o => .row (.skne r o.mode)
  | .sklt r o => .row (.sklt r o.mode)
  | .bset n m => .row (.bset n m.mode)
  | .bclr n m => .row (.bclr n m.mode)
  | .btst n m => .row (.btst n m.mode)
  | .br _ => .row .br
  | .brl _ _ => .row .brl
  | .brt _ => .row .brt
  | .bnz => .bnz
  | .call _ _ => .row .call
  | .ret => .row .ret
  | .reti => .row .reti
  | .nop => .row .nop
  | .stby => .row .stby
  | .stop => .row .stop
  | .latch k _ => .row (.latch k)
  | .illegal _ => .row .illegal

/-- The literal of an instruction that has one (R59). -/
def Instr.literal : Instr → Option Nibble
  | .mov _ => none
  | .ldIdx _ _ => none
  | .ldDir _ _ => none
  | .stIdx _ _ => none
  | .stDir _ _ => none
  | .ldAuto _ _ _ => none
  | .stAuto _ _ _ => none
  | .ldiA n => some n
  | .ldiR _ n => some n
  | .ldiX _ n => some n
  | .add o => o.literal
  | .adc o => o.literal
  | .sbc o => o.literal
  | .incM _ => none
  | .decM _ => none
  | .daa => none
  | .das => none
  | .andA _ => none
  | .orA _ => none
  | .xorA _ => none
  | .skeq _ o => o.literal
  | .skne _ o => o.literal
  | .sklt _ o => o.literal
  | .bset _ _ => none
  | .bclr _ _ => none
  | .btst _ _ => none
  | .br _ => none
  | .brl _ _ => none
  | .brt _ => none
  | .bnz => none
  | .call _ _ => none
  | .ret => none
  | .reti => none
  | .nop => none
  | .stby => none
  | .stop => none
  | .latch _ _ => none
  | .illegal _ => none

/-- The opcode word of an instruction that keeps it (R111-R115, R121, R122). -/
def Instr.opcodeWord : Instr → Option OpWord
  | .mov _ => none
  | .ldIdx _ _ => none
  | .ldDir _ _ => none
  | .stIdx _ _ => none
  | .stDir _ _ => none
  | .ldAuto _ _ _ => none
  | .stAuto _ _ _ => none
  | .ldiA _ => none
  | .ldiR _ _ => none
  | .ldiX _ _ => none
  | .add _ => none
  | .adc _ => none
  | .sbc _ => none
  | .incM _ => none
  | .decM _ => none
  | .daa => none
  | .das => none
  | .andA _ => none
  | .orA _ => none
  | .xorA _ => none
  | .skeq _ _ => none
  | .skne _ _ => none
  | .sklt _ _ => none
  | .bset _ _ => none
  | .bclr _ _ => none
  | .btst _ _ => none
  | .br op => some op
  | .brl op _ => some op
  | .brt op => some op
  | .bnz => none
  | .call op _ => some op
  | .ret => none
  | .reti => none
  | .nop => none
  | .stby => none
  | .stop => none
  | .latch _ op => some op
  | .illegal op => some op

end Sys2Proof

namespace Sys2Proof.Machine

/-! ## The invariant -/

/-- `X` and `Y` are `IDX_W`-bit values (R17). -/
def State.idxInRange (s : State) : Prop :=
  s.x.toNat < 2 ^ s.par.idxW ∧ s.y.toNat < 2 ^ s.par.idxW

/-- The invariant of the machine: both stores in canonical form (R33, R34, R41), the index registers in range (R17). -/
def State.Inv (s : State) : Prop :=
  s.ram.wf = true ∧ s.prog.progWf = true ∧ s.idxInRange

/-! ## Who writes what (R18, R20, R22, R24, R29) -/

/-- A row of the access matrix (R29): which pieces of state outside memory an instruction may write. -/
structure Writes where
  a : Bool := false
  b : Bool := false
  w : Bool := false
  x : Bool := false
  y : Bool := false
  c : Bool := false
  /-- `PC`, beyond the fetch's own advance. -/
  pc : Bool := false
  /-- `SP` and `STK` (R20). -/
  stack : Bool := false
  ie : Bool := false
  run : Bool := false
  /-- An event is emitted. -/
  event : Bool := false
deriving DecidableEq, Repr

/-- The row of a load into a data register. -/
def Writes.ofData (r : DataReg) : Writes :=
  { a := r == .a, b := r == .b, w := r == .w }

/-- The row of an instruction that steps or loads an index register. -/
def Writes.ofIdx (i : IdxReg) : Writes :=
  { x := i == .x, y := i == .y }

/-- The access matrix, instruction by instruction (R29). -/
def writes : Instr → Writes
  | .mov p => { a := p == .ab || p == .aw, b := p == .ba, w := p == .wa }
  | .ldIdx r _ => .ofData r
  | .ldDir r _ => .ofData r
  | .stIdx _ _ => {}
  | .stDir _ _ => {}
  | .ldAuto r i _ => { Writes.ofData r with x := i == .x, y := i == .y }
  | .stAuto _ i _ => .ofIdx i
  | .ldiA _ => { a := true }
  | .ldiR r _ => { b := r == .b, w := r == .w }
  | .ldiX i _ => .ofIdx i
  | .add _ => { a := true, c := true }
  | .adc _ => { a := true, c := true }
  | .sbc _ => { a := true, c := true }
  | .incM _ => { c := true }
  | .decM _ => { c := true }
  | .daa => { a := true, c := true }
  | .das => { a := true, c := true }
  | .andA _ => { a := true, c := true }
  | .orA _ => { a := true, c := true }
  | .xorA _ => { a := true, c := true }
  | .skeq _ _ => { c := true, pc := true }
  | .skne _ _ => { c := true, pc := true }
  | .sklt _ _ => { c := true, pc := true }
  | .bset _ _ => {}
  | .bclr _ _ => {}
  | .btst _ _ => { c := true, pc := true }
  | .br _ => { pc := true }
  | .brl _ _ => { pc := true }
  | .brt _ => { pc := true }
  | .bnz => { pc := true }
  | .call _ _ => { pc := true, stack := true }
  | .ret => { pc := true, stack := true }
  | .reti => { pc := true, stack := true, ie := true }
  | .nop => {}
  | .stby => { run := true, event := true }
  | .stop => { run := true, event := true }
  | .latch _ _ => { event := true }
  | .illegal _ => { event := true }

/-- The address an instruction stores to, with the functions the meanings use; none for an instruction that stores no
cell (R88, R89, R91, R98, R99, R108, R109). -/
def storeAddr (s : State) : Instr → Option DataAddr
  | .mov _ => none
  | .ldIdx _ _ => none
  | .ldDir _ _ => none
  | .stIdx _ i => some (eaIdx i s)
  | .stDir _ d => some d
  | .ldAuto _ _ _ => none
  | .stAuto _ i _ => some (eaIdx i s)
  | .ldiA _ => none
  | .ldiR _ _ => none
  | .ldiX _ _ => none
  | .add _ => none
  | .adc _ => none
  | .sbc _ => none
  | .incM m => some (ea m s)
  | .decM m => some (ea m s)
  | .daa => none
  | .das => none
  | .andA _ => none
  | .orA _ => none
  | .xorA _ => none
  | .skeq _ _ => none
  | .skne _ _ => none
  | .sklt _ _ => none
  | .bset _ m => some (ea m s)
  | .bclr _ m => some (ea m s)
  | .btst _ _ => none
  | .br _ => none
  | .brl _ _ => none
  | .brt _ => none
  | .bnz => none
  | .call _ _ => none
  | .ret => none
  | .reti => none
  | .nop => none
  | .stby => none
  | .stop => none
  | .latch _ _ => none
  | .illegal _ => none

/-! ## Operands that are there -/

/-- `ea` is a RAM cell that holds `v` (R25, R38). -/
def cellHolds (s : State) (ea : DataAddr) (v : Nibble) : Prop :=
  inRam s.par ea = true ∧ readCell s ea = some v

/-- `ea` is in neither window (R37). -/
def unusedAddr (s : State) (ea : DataAddr) : Prop :=
  inRam s.par ea = false ∧ inStackWindow ea = false

/-- `t` is `s` with the cell `ea` holding `v` and every other cell as before (R39, R84). -/
def storesCell (s t : State) (ea : DataAddr) (v : Nibble) : Prop :=
  readCell t ea = some v ∧ ∀ e : DataAddr, e ≠ ea → readCell t e = readCell s e

/-! ## Program counter and stack -/

/-- Where a taken skip leaves `PC` (R77): past the next instruction, one word or two by its first word. -/
def afterSkip (s : State) : ProgAddr :=
  s.pc + (if tw s.par (progRead s.prog s.pc) then 2 else 1)

/-- A push does not fault (R78): the stack has room, or the policy is to saturate. -/
def pushOk (s : State) : Prop :=
  s.sp.val < 64 ∨ s.par.stackPolicy = .saturate

/-- `t` has `a` pushed on `s`'s return stack (R78): in the next free entry, or in `STK[63]` of a full stack; every other
entry is as before. -/
def pushed (s t : State) (a : ProgAddr) : Prop :=
  t.sp.val = min (s.sp.val + 1) 64 ∧ ∀ j : Fin 64, t.stk[j] = if j.val = min s.sp.val 63 then a else s.stk[j]

/-- The second word the next fetch reads, 0 where the opcode has none (R55, R72). -/
def nextSecond (s : State) : OpWord :=
  if tw s.par (progRead s.prog s.pc) then progRead s.prog (s.pc + 1) else 0

/-- What the decoder gives for the words at `PC` (R72). -/
def nextInstr (s : State) : Except DecodeReject Instr :=
  decode s.par (progRead s.prog s.pc) (nextSecond s)

/-- The next step fetches an instruction: Fetching, and no interrupt is due (R75). -/
def fetchesNext (s : State) : Prop :=
  s.run = .fetching ∧ interruptDue (hostInput s) s = false

/-- The state an instruction of the next step starts from (R72, R73): the inputs taken, the `Trace` emitted, `PC` past
the instruction's last word. -/
def fetched (s : State) : State :=
  { s with
    inputs := s.inputs.tail
    events := s.events ++ [.trace s.pc]
    pc := s.pc + BitVec.ofNat 14 (wordCount s.par (progRead s.prog s.pc)) }

/-- What the next step takes from the budget where it fetches and completes (R80). -/
def stepCost (s : State) : Nat :=
  cost s.par (dispatch s.par.decodeMap (progRead s.prog s.pc)) (wordCount s.par (progRead s.prog s.pc))

/-- A result with its next state changed by `f`. -/
def mapNext (f : State → State) (r : Result) : Result :=
  match r with
  | .next t => .next (f t)
  | .fault q => .fault q
  | .refused q => .refused q

/-- The state with another Variant Descriptor (R6). -/
def withVariant (v : Variant) (s : State) : State :=
  { s with par := { s.par with variant := v } }

/-! ## A safe run -/

/-- The outcome is a next state. -/
def completes (r : Result) : Bool :=
  match r with
  | .next _ => true
  | .fault _ => false
  | .refused _ => false

/-- `n` steps from `s` end in no fault and no refusal. -/
def safeFor : Nat → State → Bool
  | 0, _ => true
  | n + 1, s =>
    match step s with
    | .next t => safeFor n t
    | .fault _ => false
    | .refused _ => false

end Sys2Proof.Machine
end

