-- ==== Sys2Proof/Certificates/Slice0/Obligations.lean ====
section
/-! DEFINITION. The statements for the provers, from the numbered rules of spec/. Each docstring names its rules. -/

open Sys2Proof Sys2Proof.Machine

/-! ## Encoding and dispatch -/

/-- R62, R63: the two encodings the spec fixes, whatever the rest of `DECODE` is. That they are one word (R64) under every
pair of ranges, those that claim them among them, is the model's choice (log 9). -/
def Obligations.FixedEncodingsDecode : Prop :=
  ∀ (p : Params) (n : Nibble) (w2 : OpWord),
    decode p (0x230#10 ||| n.setWidth 10) w2 = .ok (.ldiA n) ∧ decode p 0x244#10 w2 = .ok .bnz ∧
    wordCount p (0x230#10 ||| n.setWidth 10) = 1 ∧ wordCount p 0x244#10 = 1

/-- The words the spec writes out (R62, R63, S8), through the host's question. -/
def Obligations.WrittenWordsDecode : Prop :=
  decodeTableWord 16 0x230 = some (.ldiA 0) ∧ decodeTableWord 16 0x23F = some (.ldiA 15) ∧
    decodeTableWord 16 0x235 = some (.ldiA 5) ∧ decodeTableWord 16 0x244 = some .bnz

/-- R61: an opcode has the handler of the first claiming row of the earliest claiming tier; a masked row claims the opcodes
with `op & mask = pattern`, an exact row its own. That `DECODE` is three lists of rows is the model's form of the
parameter (log 8). -/
def Obligations.EarlierTierWins : Prop :=
  ∀ (m : DecodeMap) (op : OpWord),
    (∀ pre r post, m.tier1 = pre ++ r :: post → (∀ q ∈ pre, op &&& q.mask ≠ q.pattern) →
      op &&& r.mask = r.pattern → handlerAt m op = r.handler) ∧
    (∀ pre r post, m.tier2 = pre ++ r :: post → (∀ q ∈ m.tier1 ++ pre, op &&& q.mask ≠ q.pattern) →
      op &&& r.mask = r.pattern → handlerAt m op = r.handler) ∧
    (∀ pre r post, m.tier3 = pre ++ r :: post → (∀ q ∈ m.tier1 ++ m.tier2, op &&& q.mask ≠ q.pattern) →
      (∀ q ∈ pre, q.op ≠ op) → r.op = op → handlerAt m op = r.handler)

/-- R66: an opcode no tier assigns is `ILLEGAL`, one word or two. -/
def Obligations.UnassignedOpcodeDecodesIllegal : Prop :=
  ∀ (p : Params) (op w2 : OpWord), isFixedOp op = false →
    p.decodeMap.tier1.any (fun r => r.claims op) = false → p.decodeMap.tier2.any (fun r => r.claims op) = false →
    p.decodeMap.tier3.any (fun r => r.op == op) = false → decode p op w2 = .ok (.illegal op)

/-- R55, R57-R60, R65: what the decoder gives is well-formed, and says what the words say: the schema and operand fields
of the handler `DECODE` gives the opcode, the literal `op[3:0]`, the opcode word where it keeps one, and as its second
word the one fetched at a two-word opcode (which `ILLEGAL` alone does not keep) and 0 at a one-word one. It gives an
instruction at every opcode whose handler obeys the length rule. -/
def Obligations.DecodedIsWellFormed : Prop :=
  ∀ (p : Params) (op w2 : OpWord),
    (∀ i, decode p op w2 = .ok i →
      i.wf p = true ∧ i.schema = dispatch p.decodeMap op ∧
      (∀ n, i.literal = some n → n = BitVec.ofNat 4 op.toNat) ∧ (∀ o, i.opcodeWord = some o → o = op) ∧
      (tw p op = true → i ≠ .illegal op → i.secondWord = w2) ∧ (tw p op = false → i.secondWord = 0)) ∧
    (isFixedOp op = false → dispatch p.decodeMap op = .row (handlerAt p.decodeMap op)) ∧
    (isFixedOp op = false → (handlerAt p.decodeMap op).lengthOk (tw p op) = true → ∃ i, decode p op w2 = .ok i)

/-- R54-R60: an instruction has words exactly where some opcode selects it, and its words decode to it, whatever words
follow; every operand at every value. -/
def Obligations.EncodeDecodeRoundTrip : Prop :=
  ∀ (p : Params) (i : Instr),
    ((∃ op w2, decode p op w2 = .ok i) ↔ ∃ ws, encode p i = some ws) ∧
    ∀ ws rest, encode p i = some ws → decodeWords p (ws ++ rest) = .ok (i, rest)

/-! ## Fetch, skip and program memory -/

/-- R42: the word read is the container's low 10 bits. -/
def Obligations.ProgramReadMasksWord : Prop :=
  ∀ (m : Memory) (a : ProgAddr), (progRead m a).toNat =
    ((progByte m (2 * a.toNat + 1)).toNat * 256 + (progByte m (2 * a.toNat)).toNat) % 1024

/-- R71: `Fetch()` reads the word at `PC` and advances it by one modulo 16384. -/
def Obligations.FetchReadsAndAdvances : Prop :=
  ∀ s : State, (fetch s).1 = progRead s.prog s.pc ∧ (fetch s).2 = { s with pc := (fetch s).2.pc } ∧
    (fetch s).2.pc.toNat = (s.pc.toNat + 1) % 16384

/-- R77: `SkipNext()` passes over the whole next instruction, one word or two, and changes `PC` alone. -/
def Obligations.SkipPassesWholeInstruction : Prop :=
  ∀ s : State, skipNext s = { s with pc := (skipNext s).pc } ∧
    (skipNext s).pc.toNat = (s.pc.toNat + if tw s.par (progRead s.prog s.pc) then 2 else 1) % 16384

/-- R41, R145: a word the host places is read back, and every other word is as before. -/
def Obligations.PlacedWordIsRead : Prop :=
  ∀ (m : Memory) (a b : ProgAddr) (w : OpWord), m.sorted = true →
    progRead (placeWord m a w) b = if b = a then w else progRead m b

/-! ## Operands -/

/-- R38, R40, R74: what a source operand reads, form by form: an immediate is itself; a RAM cell its value, without an
effect; an `undef` cell and the stack window fault; an unused address gives a draw. -/
def Obligations.SourceOperandReads : Prop :=
  ∀ (s : State) (m : MemOp) (n : Nibble),
    readSrc (.imm n) s = .ok (n, s) ∧
    (∀ v, cellHolds s (ea m s) v → readSrc (.mem m) s = .ok (v, s)) ∧
    (inRam s.par (ea m s) = true → readCell s (ea m s) = none →
      readSrc (.mem m) s = .error (.undefCell (ea m s))) ∧
    (0x3C0 ≤ (ea m s).toNat → readSrc (.mem m) s = .error (.stackWindow (ea m s))) ∧
    (unusedAddr s (ea m s) →
      readSrc (.mem m) s = .ok (Config.freeNibble s.draws, { s with draws := s.draws + 1 }))

/-! ## Load/Move -/

/-- R85: `MOV` copies; `MOV A,W` reads the write-only register and faults. -/
def Obligations.MovCopiesRegister : Prop :=
  ∀ s : State, exec (.mov .ab) s = .next { s with a := s.b } ∧ exec (.mov .ba) s = .next { s with b := s.a } ∧
    exec (.mov .wa) s = .next { s with w := s.a } ∧ exec (.mov .aw) s = .fault .wRead

/-- R86, R87: `LD` from a RAM cell writes the named register alone. -/
def Obligations.LoadReadsCell : Prop :=
  ∀ (s : State) (v : Nibble),
    (∀ i, cellHolds s (eaIdx i s) v → exec (.ldIdx .a i) s = .next { s with a := v } ∧
      exec (.ldIdx .b i) s = .next { s with b := v } ∧ exec (.ldIdx .w i) s = .next { s with w := v }) ∧
    (∀ d, cellHolds s d v → exec (.ldDir .a d) s = .next { s with a := v } ∧
      exec (.ldDir .b d) s = .next { s with b := v } ∧ exec (.ldDir .w d) s = .next { s with w := v })

/-- R37, R86, R87, R90: `LD` from an unused address completes with a draw in the named register, and an auto-index
still moves. -/
def Obligations.LoadUnusedIsDraw : Prop :=
  ∀ (s : State) (r : DataReg),
    (∀ i, unusedAddr s (eaIdx i s) → exec (.ldIdx r i) s =
      .next (writeData r (Config.freeNibble s.draws) { s with draws := s.draws + 1 })) ∧
    (∀ d, unusedAddr s d → exec (.ldDir r d) s =
      .next (writeData r (Config.freeNibble s.draws) { s with draws := s.draws + 1 })) ∧
    (∀ i dir, unusedAddr s (eaIdx i s) → exec (.ldAuto r i dir) s =
      .next (autoIdx i dir (writeData r (Config.freeNibble s.draws) { s with draws := s.draws + 1 })))

/-- R38, R86, R87, R90: where a load faults. -/
def Obligations.LoadFaults : Prop :=
  ∀ (s : State) (r : DataReg) (i : IdxReg) (dir : Dir) (d : DataAddr),
    (0x3C0 ≤ d.toNat → exec (.ldDir r d) s = .fault (.stackWindow d)) ∧
    (inRam s.par d = true → readCell s d = none → exec (.ldDir r d) s = .fault (.undefCell d)) ∧
    (0x3C0 ≤ (eaIdx i s).toNat → exec (.ldIdx r i) s = .fault (.stackWindow (eaIdx i s)) ∧
      exec (.ldAuto r i dir) s = .fault (.stackWindow (eaIdx i s))) ∧
    (inRam s.par (eaIdx i s) = true → readCell s (eaIdx i s) = none →
      exec (.ldIdx r i) s = .fault (.undefCell (eaIdx i s)) ∧
      exec (.ldAuto r i dir) s = .fault (.undefCell (eaIdx i s)))

/-- R88, R89: `ST` of a readable register to a RAM cell writes that cell alone. -/
def Obligations.StoreWritesCell : Prop :=
  ∀ (s : State) (r : DataReg) (v : Nibble), readData r s = .ok v →
    (∀ i, inRam s.par (eaIdx i s) = true →
      ∃ t, exec (.stIdx r i) s = .next t ∧ storesCell s t (eaIdx i s) v ∧ t = { s with ram := t.ram }) ∧
    (∀ d, inRam s.par d = true →
      ∃ t, exec (.stDir r d) s = .next t ∧ storesCell s t d v ∧ t = { s with ram := t.ram })

/-- R16, R39, R88, R89, R91: where a store faults: `W` as the source; the stack window; an unused address. -/
def Obligations.StoreFaults : Prop :=
  ∀ (s : State) (r : DataReg) (v : Nibble) (i : IdxReg) (dir : Dir) (d : DataAddr),
    (exec (.stIdx .w i) s = .fault .wRead ∧ exec (.stDir .w d) s = .fault .wRead ∧
      exec (.stAuto .w i dir) s = .fault .wRead) ∧
    (readData r s = .ok v → 0x3C0 ≤ d.toNat → exec (.stDir r d) s = .fault (.stackWindow d)) ∧
    (readData r s = .ok v → unusedAddr s d → exec (.stDir r d) s = .fault (.unusedWrite d)) ∧
    (readData r s = .ok v → 0x3C0 ≤ (eaIdx i s).toNat →
      exec (.stIdx r i) s = .fault (.stackWindow (eaIdx i s)) ∧
      exec (.stAuto r i dir) s = .fault (.stackWindow (eaIdx i s))) ∧
    (readData r s = .ok v → unusedAddr s (eaIdx i s) →
      exec (.stIdx r i) s = .fault (.unusedWrite (eaIdx i s)) ∧
      exec (.stAuto r i dir) s = .fault (.unusedWrite (eaIdx i s)))

/-- R90: `LD` with auto-index from a RAM cell: the access uses the old index, the register takes the cell, then the index
moves by one modulo `2^IDX_W`; all else is unchanged, `C` included. -/
def Obligations.LoadAutoIndexes : Prop :=
  ∀ (s : State) (r : DataReg) (i : IdxReg) (v : Nibble), cellHolds s (eaIdx i s) v →
    exec (.ldAuto r i .inc) s = .next
      (writeIdx i (BitVec.ofNat 10 (((readIdx i s).toNat + 1) % 2 ^ s.par.idxW)) (writeData r v s)) ∧
    exec (.ldAuto r i .dec) s = .next
      (writeIdx i (BitVec.ofInt 10 (((readIdx i s).toNat - 1 : Int) % 2 ^ s.par.idxW)) (writeData r v s))

/-- R91: `ST` with auto-index to a RAM cell: that cell alone is written, then the index moves. -/
def Obligations.StoreAutoIndexes : Prop :=
  ∀ (s : State) (r : DataReg) (i : IdxReg) (v : Nibble), readData r s = .ok v → inRam s.par (eaIdx i s) = true →
    (∃ t, exec (.stAuto r i .inc) s = .next t ∧ storesCell s t (eaIdx i s) v ∧
      t = writeIdx i (BitVec.ofNat 10 (((readIdx i s).toNat + 1) % 2 ^ s.par.idxW)) { s with ram := t.ram }) ∧
    (∃ t, exec (.stAuto r i .dec) s = .next t ∧ storesCell s t (eaIdx i s) v ∧
      t = writeIdx i (BitVec.ofInt 10 (((readIdx i s).toNat - 1 : Int) % 2 ^ s.par.idxW)) { s with ram := t.ram })

/-! ## Immediate Load -/

/-- R92: words 0x230-0x23F load `A` with the low four bits, and change nothing else. -/
def Obligations.LoadImmediateAccumulator : Prop :=
  ∀ (p : Params) (n : Nibble) (w2 : OpWord) (s : State),
    decode p (0x230#10 ||| n.setWidth 10) w2 = .ok (.ldiA n) ∧ exec (.ldiA n) s = .next { s with a := n }

/-- R93, R94: the other immediate loads; an index register's bits above bit 3 become 0. -/
def Obligations.LoadImmediateRegisters : Prop :=
  ∀ (s : State) (n : Nibble),
    exec (.ldiR .b n) s = .next { s with b := n } ∧ exec (.ldiR .w n) s = .next { s with w := n } ∧
    exec (.ldiX .x n) s = .next { s with x := BitVec.ofNat 10 n.toNat } ∧
    exec (.ldiX .y n) s = .next { s with y := BitVec.ofNat 10 n.toNat }

/-! ## Arithmetic/Logic -/

/-- R95: `A <- (a + b) mod 16`, `C <- 1` exactly when `a + b >= 16`; the old `C` is not read. A fault of the operand is
the instruction's. -/
def Obligations.AddResult : Prop :=
  ∀ (o : SrcOp) (s : State),
    (∀ t v, readSrc o s = .ok (v, t) → exec (.add o) s = .next { t with
      a := BitVec.ofNat 4 (s.a.toNat + v.toNat)
      c := if 16 ≤ s.a.toNat + v.toNat then 1 else 0 }) ∧
    (∀ f, readSrc o s = .error f → exec (.add o) s = .fault f)

/-- R96: as `ADD`, with the old `C` added in. -/
def Obligations.AdcResult : Prop :=
  ∀ (o : SrcOp) (s : State),
    (∀ t v, readSrc o s = .ok (v, t) → exec (.adc o) s = .next { t with
      a := BitVec.ofNat 4 (s.a.toNat + v.toNat + s.c.toNat)
      c := if 16 ≤ s.a.toNat + v.toNat + s.c.toNat then 1 else 0 }) ∧
    (∀ f, readSrc o s = .error f → exec (.adc o) s = .fault f)

/-- R97: `SBC` under both polarities. -/
def Obligations.SbcResult : Prop :=
  ∀ (o : SrcOp) (s : State),
    (∀ t v, readSrc o s = .ok (v, t) →
      (s.par.subCarry = .borrow → exec (.sbc o) s = .next { t with
        a := BitVec.ofInt 4 ((s.a.toNat : Int) - v.toNat - s.c.toNat)
        c := if s.a.toNat < v.toNat + s.c.toNat then 1 else 0 }) ∧
      (s.par.subCarry = .carry → exec (.sbc o) s = .next { t with
        a := BitVec.ofNat 4 (s.a.toNat + (15 - v.toNat) + s.c.toNat)
        c := if 16 ≤ s.a.toNat + (15 - v.toNat) + s.c.toNat then 1 else 0 })) ∧
    (∀ f, readSrc o s = .error f → exec (.sbc o) s = .fault f)

/-- R97: the two polarities of `SBC` give the same `A`, and complementary `C`, from complementary incoming `C`, for every
operand whose read answers. -/
def Obligations.SbcPolaritiesAgree : Prop :=
  ∀ (o : SrcOp) (s r : State) (v : Nibble), s.par.subCarry = .borrow → readSrc o s = .ok (v, r) →
    ∃ t u, exec (.sbc o) s = .next t ∧
      exec (.sbc o) { s with par := { s.par with subCarry := .carry }, c := ~~~ s.c } = .next u ∧
      u.a = t.a ∧ u.c = ~~~ t.c

/-- R98, R99: `INC` and `DEC` of a RAM cell wrap modulo 16 with `C` set on the wrap; `A` is not touched, no other cell
changes. -/
def Obligations.IncDecCell : Prop :=
  ∀ (m : MemOp) (s : State) (v : Nibble), cellHolds s (ea m s) v →
    (∃ t, exec (.incM m) s = .next t ∧ storesCell s t (ea m s) (BitVec.ofNat 4 (v.toNat + 1)) ∧
      t = { s with ram := t.ram, c := if v = 15 then 1 else 0 }) ∧
    (∃ t, exec (.decM m) s = .next t ∧ storesCell s t (ea m s) (BitVec.ofNat 4 (v.toNat + 15)) ∧
      t = { s with ram := t.ram, c := if v = 0 then 1 else 0 })

/-- R98, R99, R108, R109: a read-modify-write of a cell that cannot be read and written faults: an unused address after
its drawn read, the stack window, an `undef` cell. -/
def Obligations.ReadModifyWriteFaults : Prop :=
  ∀ (m : MemOp) (n : Fin 4) (s : State) (i : Instr),
    i = .incM m ∨ i = .decM m ∨ i = .bset n m ∨ i = .bclr n m →
    (unusedAddr s (ea m s) → exec i s = .fault (.unusedWrite (ea m s))) ∧
    (0x3C0 ≤ (ea m s).toNat → exec i s = .fault (.stackWindow (ea m s))) ∧
    (inRam s.par (ea m s) = true → readCell s (ea m s) = none → exec i s = .fault (.undefCell (ea m s)))

/-- R100, R101, S5: decimal adjust writes `A` and `C` alone, and an entry above 9 ends in 0..9, for every function the
rules admit. -/
def Obligations.DecimalAdjustRange : Prop :=
  ∀ s : State,
    (∃ t, exec .daa s = .next t ∧ t = { s with a := t.a, c := t.c } ∧ (9 < s.a.toNat → t.a.toNat ≤ 9)) ∧
    (∃ t, exec .das s = .next t ∧ t = { s with a := t.a, c := t.c } ∧ (9 < s.a.toNat → t.a.toNat ≤ 9))

/-- R100, R101, 93 G2: decimal adjust under the reference instance's functions, which are the spec's test instance and
not the chip (log 6). -/
def Obligations.DecimalAdjustReference : Prop :=
  ∀ s : State,
    (s.par.daa = AdjustTable.p0Daa → exec .daa s = .next { s with
      a := if 9 < s.a.toNat ∨ s.c = 1 then s.a + 6 else s.a
      c := if 9 < s.a.toNat ∨ s.c = 1 then 1 else 0 }) ∧
    (s.par.das = AdjustTable.p0Das → exec .das s = .next { s with
      a := if 9 < s.a.toNat ∨ s.c = 1 then s.a + 10 else s.a
      c := if 9 < s.a.toNat ∨ s.c = 1 then 1 else 0 })

/-- R102-R104: the logic forms write `A`, and leave `C` a draw. A fault of the operand is the instruction's. -/
def Obligations.LogicResult : Prop :=
  ∀ (m : MemOp) (s : State),
    (∀ t v, readMem m s = .ok (v, t) →
      exec (.andA m) s = .next { t with a := s.a &&& v, c := Config.freeBit t.draws, draws := t.draws + 1 } ∧
      exec (.orA m) s = .next { t with a := s.a ||| v, c := Config.freeBit t.draws, draws := t.draws + 1 } ∧
      exec (.xorA m) s = .next { t with a := s.a ^^^ v, c := Config.freeBit t.draws, draws := t.draws + 1 }) ∧
    (∀ f, readMem m s = .error f →
      exec (.andA m) s = .fault f ∧ exec (.orA m) s = .fault f ∧ exec (.xorA m) s = .fault f)

/-! ## Compare-and-Skip, bit operations -/

/-- R105-R107, R77: the relation is unsigned over the register's full width; a taken skip passes the next instruction; `C`
becomes a draw; nothing else is written. A fault of the operand is the instruction's. The value compared is that of `A`,
`B`, `X` or `Y`, every bit of it. -/
def Obligations.CompareSkips : Prop :=
  ∀ (r : CmpReg) (o : SrcOp) (s : State),
    (readCmp .a s = s.a.toNat ∧ readCmp .b s = s.b.toNat ∧ readCmp .x s = s.x.toNat ∧ readCmp .y s = s.y.toNat) ∧
    (∀ t v, readSrc o s = .ok (v, t) →
      exec (.skeq r o) s = .next { t with
        c := Config.freeBit t.draws, draws := t.draws + 1
        pc := if readCmp r s = v.toNat then afterSkip s else s.pc } ∧
      exec (.skne r o) s = .next { t with
        c := Config.freeBit t.draws, draws := t.draws + 1
        pc := if readCmp r s = v.toNat then s.pc else afterSkip s } ∧
      exec (.sklt r o) s = .next { t with
        c := Config.freeBit t.draws, draws := t.draws + 1
        pc := if readCmp r s < v.toNat then afterSkip s else s.pc }) ∧
    (∀ f, readSrc o s = .error f →
      exec (.skeq r o) s = .fault f ∧ exec (.skne r o) s = .fault f ∧ exec (.sklt r o) s = .fault f)

/-- R108, R109: bit `n` of the cell is set or cleared, its other bits, the other cells and `C` are unchanged. -/
def Obligations.BitSetClear : Prop :=
  ∀ (n : Fin 4) (m : MemOp) (s : State) (v : Nibble), cellHolds s (ea m s) v →
    (∃ t u, exec (.bset n m) s = .next t ∧ storesCell s t (ea m s) u ∧ t = { s with ram := t.ram } ∧
      ∀ k : Fin 4, u.getLsbD k.val = if k = n then true else v.getLsbD k.val) ∧
    (∃ t u, exec (.bclr n m) s = .next t ∧ storesCell s t (ea m s) u ∧ t = { s with ram := t.ram } ∧
      ∀ k : Fin 4, u.getLsbD k.val = if k = n then false else v.getLsbD k.val)

/-- R110: `BTST` skips where bit `n` is `BTST_SKIP_ON`; the cell is not written; `C` becomes a draw. A fault of the operand
is the instruction's. -/
def Obligations.BitTestSkips : Prop :=
  ∀ (n : Fin 4) (m : MemOp) (s : State),
    (∀ t v, readMem m s = .ok (v, t) → exec (.btst n m) s = .next { t with
      c := Config.freeBit t.draws, draws := t.draws + 1
      pc := if v.getLsbD n.val = decide (s.par.btstSkipOn = 1) then afterSkip s else s.pc }) ∧
    (∀ f, readMem m s = .error f → exec (.btst n m) s = .fault f)

/-! ## Control transfer -/

/-- R111: the target has the base's page bits above the offset field's width and the offset field below it. -/
def Obligations.ShortBranchTarget : Prop :=
  ∀ (op : OpWord) (s : State), ∃ t, exec (.br op) s = .next t ∧ t = { s with pc := t.pc } ∧
    ∀ k : Fin 14, t.pc.getLsbD k.val =
      if k.val < s.par.shortBranch.bits then op.getLsbD (s.par.shortBranch.lo + k.val)
      else ((s.pc - 1) + if s.par.shortBranch.base = .next then 1 else 0).getLsbD k.val

/-- R112, R113: the long branches go to their target functions, and change `PC` alone; a `TABLE_TARGET` that may read `W`
faults where it does (log 24). That `BRT` reads a `TB` nothing has written is the model's choice (log 2). -/
def Obligations.LongBranchTargets : Prop :=
  ∀ (op w2 : OpWord) (s : State), exec (.brl op w2) s = .next { s with pc := Config.longTarget op w2 } ∧
    (s.par.tableMayReadW = false →
      exec (.brt op) s = .next { s with pc := Config.tableTarget op (regView s) (progRead s.prog) }) ∧
    (s.par.tableMayReadW = true → exec (.brt op) s =
      if Config.tableReadsW op (regView s) (progRead s.prog) = true then .fault .wRead
      else .next { s with pc := Config.tableTarget op (regView s) (progRead s.prog) })

/-- R114: `BNZ` falls through on `A = 0`, and else goes to its target, from the address of its own word. -/
def Obligations.BranchNonZero : Prop :=
  ∀ s : State, (s.a = 0 → exec .bnz s = .next s) ∧
    (s.a ≠ 0 → exec .bnz s = .next { s with pc := Config.bnzTarget 0x244 (s.pc - 1) })

/-- R78, R115: `CALL` pushes the address after its last word and jumps; a full stack overwrites `STK[63]` under
`saturate` and faults under `refuse`. -/
def Obligations.CallPushesAndJumps : Prop :=
  ∀ (op w2 : OpWord) (s : State),
    (pushOk s → ∃ t, exec (.call op w2) s = .next t ∧ pushed s t s.pc ∧
      t = { s with pc := Config.callTarget op w2, sp := t.sp, stk := t.stk }) ∧
    (s.sp.val = 64 → s.par.stackPolicy = .refuse → exec (.call op w2) s = .fault .stackOverflow)

/-- R79, R116: `RET` pops into `PC`; an empty stack is a no-op under `saturate` and faults under `refuse`. -/
def Obligations.ReturnPops : Prop :=
  ∀ s : State,
    (∀ j : Fin 64, j.val + 1 = s.sp.val → exec .ret s = .next { s with pc := s.stk[j], sp := j.castSucc }) ∧
    (s.sp = 0 → s.par.stackPolicy = .saturate → exec .ret s = .next s) ∧
    (s.sp = 0 → s.par.stackPolicy = .refuse → exec .ret s = .fault .stackUnderflow)

/-- R79, R117: `RETI` does as `RET` and sets `IE`, on an empty stack too. -/
def Obligations.ReturnFromInterruptEnables : Prop :=
  ∀ s : State,
    (∀ j : Fin 64, j.val + 1 = s.sp.val →
      exec .reti s = .next { s with pc := s.stk[j], sp := j.castSucc, ie := 1 }) ∧
    (s.sp = 0 → s.par.stackPolicy = .saturate → exec .reti s = .next { s with ie := 1 }) ∧
    (s.sp = 0 → s.par.stackPolicy = .refuse → exec .reti s = .fault .stackUnderflow)

/-- R116, S6: a call made with `SP < 64` and then a return come back to the address after the call's fetch with `SP` and
everything but stale stack entries as before. -/
def Obligations.CallReturnRoundTrip : Prop :=
  ∀ (op w2 : OpWord) (s : State), s.sp.val < 64 →
    ∃ t u, exec (.call op w2) s = .next t ∧ exec .ret t = .next u ∧ u = { s with stk := u.stk } ∧
      ∀ j : Fin 64, j.val ≠ s.sp.val → u.stk[j] = s.stk[j]

/-! ## Mode control and the illegal opcode -/

/-- R118, R122: `NOP` and `ILLEGAL` change no register, flag, memory or stack; `ILLEGAL` reports its opcode word and the
address it was fetched from. -/
def Obligations.NoOpAndIllegal : Prop :=
  ∀ (op : OpWord) (s : State), exec .nop s = .next s ∧
    exec (.illegal op) s = .next { s with
      events := s.events ++ [.illegal (s.pc - if tw s.par op then 2 else 1) op] }

/-- R119-R121: standby and stop enter Halted and differ only in their event; a latch instruction emits its event and
changes nothing else. A `LATCH_ARG` that may read `W` faults where it does; that there are these two kinds of it, and that
its value is a number, is the model's form of the parameter (log 23). -/
def Obligations.ModeControlEffects : Prop :=
  ∀ (k op : OpWord) (s : State),
    exec .stby s = .next { s with run := .halted, events := s.events ++ [.halt .standby] } ∧
    exec .stop s = .next { s with run := .halted, events := s.events ++ [.halt .stop] } ∧
    (s.par.latchMayReadW = false → exec (.latch k op) s =
      .next { s with events := s.events ++ [.latch k (Config.latchArg k op (regView s))] }) ∧
    (s.par.latchMayReadW = true → exec (.latch k op) s =
      if Config.latchReadsW k op (regView s) = true then .fault .wRead
      else .next { s with events := s.events ++ [.latch k (Config.latchArg k op (regView s))] })

/-! ## The step -/

/-- R72, R73, R75, R80: a step that fetches runs the instruction the words at `PC` decode to, from the state with its
inputs taken, `Trace` emitted and `PC` past the last word, and takes the instruction's cost from the budget. -/
def Obligations.StepRunsDecoded : Prop :=
  ∀ (s : State) (i : Instr), fetchesNext s → nextInstr s = .ok i →
    step s = chargeNext (stepCost s) (exec i (fetched s))

/-- R75, R127-R130: with `IE = 1`, Fetching and a line high, the step acknowledges: it pushes `PC`, clears `IE` and goes
to the line's vector; no `Trace`, no register, flag or RAM cell changes. With both lines high it is either line, by a
draw. On a full stack under `refuse` it faults. -/
def Obligations.InterruptAcknowledge : Prop :=
  ∀ s : State, s.run = .fetching → s.ie = 1 →
    (∀ k : Bool, pushOk s → (hostInput s).int0 = !k → (hostInput s).int1 = k →
      ∃ t, step s = .next t ∧ pushed s t s.pc ∧ t = { s with
        pc := if k then s.par.vec1 else s.par.vec0, ie := 0, sp := t.sp, stk := t.stk, inputs := s.inputs.tail
        events := s.events ++ [.intAck k], budget := s.budget - Config.intCost }) ∧
    (pushOk s → (hostInput s).int0 = true → (hostInput s).int1 = true →
      ∃ t k, step s = .next t ∧ pushed s t s.pc ∧ t = { s with
        pc := if k then s.par.vec1 else s.par.vec0, ie := 0, sp := t.sp, stk := t.stk, inputs := s.inputs.tail
        events := s.events ++ [.intAck k], budget := s.budget - Config.intCost, draws := s.draws + 1 }) ∧
    (s.sp.val = 64 → s.par.stackPolicy = .refuse → ((hostInput s).int0 || (hostInput s).int1) = true →
      step s = .fault .stackOverflow)

/-- A step at an opcode whose handler breaks the length rule is refused: the model's reading of R65 where the rule
excludes the `DECODE` (log 10). -/
def Obligations.StepRefusesBrokenDecode : Prop :=
  ∀ (s : State) (e : DecodeReject), fetchesNext s → nextInstr s = .error e →
    step s = .refused (.lengthRule (progRead s.prog s.pc))

/-- R22, R128: while `IE = 0` the interrupt lines have no effect. -/
def Obligations.MaskedLinesHaveNoEffect : Prop :=
  ∀ (s : State) (i : HostInput) (rest : List HostInput) (a b : Bool), s.ie = 0 →
    step { s with inputs := i :: rest } = step { s with inputs := { i with int0 := a, int1 := b } :: rest }

/-- R75, R133, R140: while Halted only `WAKE` acts; all state but `RUN` survives, and no interrupt is taken. -/
def Obligations.HaltedStepIdlesOrWakes : Prop :=
  ∀ s : State, s.run = .halted →
    ((hostInput s).wake = false →
      step s = .next { s with inputs := s.inputs.tail, budget := s.budget - Config.idleCost }) ∧
    ((hostInput s).wake = true → step s = .next { s with
      inputs := s.inputs.tail, budget := s.budget - Config.idleCost, run := .fetching
      events := s.events ++ [.wake] })

/-- R80, R118, R122: an admitted instruction costs at least the cycles of its fetches, and `ILLEGAL`, of either length,
what `NOP` costs; so a step that fetches lowers the budget. -/
def Obligations.FetchingStepSpendsBudget : Prop :=
  (∀ (p : Params) (op w2 : OpWord) (i : Instr), decode p op w2 = .ok i →
    wordCount p op ≤ cost p (dispatch p.decodeMap op) (wordCount p op)) ∧
  (∀ (p : Params) (n : Nat), cost p (.row .illegal) n = cost p (.row .nop) 1) ∧
  ∀ s t : State, fetchesNext s → step s = .next t → t.budget = s.budget - stepCost s ∧ t.budget < s.budget

/-! ## Reset -/

/-- R141, R142: what reset leaves, of the values the spec gives: Fetching at `RESET_PC`, an empty stack, the host's
program and RAM. -/
def Obligations.ResetLeaves : Prop :=
  ∀ (p : Params) (prog ram : Memory),
    (State.resetWith p prog ram).run = .fetching ∧ (State.resetWith p prog ram).pc = p.resetPc ∧
    (State.resetWith p prog ram).sp = 0 ∧ (State.resetWith p prog ram).ram = ram ∧
    (State.resetWith p prog ram).prog = prog ∧ State.reset = State.resetWith Params.p0 [] []

/-- The invariant holds at reset with any stores in canonical form, so at `State.reset`. That `X` and `Y` are 0 there is
the model's choice (log 1). -/
def Obligations.ResetMeetsInv : Prop :=
  State.reset.Inv ∧ ∀ (p : Params) (prog ram : Memory), prog.progWf = true → ram.wf = true →
    (State.resetWith p prog ram).Inv

/-! ## The whole machine -/

/-- R17, R33, R34, R41: every step keeps both stores in canonical form and the index registers in range. -/
def Obligations.StepKeepsInv : Prop :=
  ∀ s t : State, s.Inv → step s = .next t → t.Inv

/-- R6, R23, R28, R43: no step changes the parameters, the program store or `TB`. -/
def Obligations.StepKeepsConfiguration : Prop :=
  ∀ s t : State, step s = .next t → t.par = s.par ∧ t.prog = s.prog ∧ t.tb = s.tb

/-- R6: no instruction semantics depend on the variant: a step under another Variant Descriptor does the same. -/
def Obligations.VariantHasNoEffect : Prop :=
  ∀ (s : State) (v : Variant), step (withVariant v s) = mapNext (withVariant v) (step s)

/-- R22, R128: in a step from `IE = 0` to `IE = 1` the instruction is `RETI`. -/
def Obligations.OnlyRetiEnables : Prop :=
  ∀ s t : State, step s = .next t → s.ie = 0 → t.ie = 1 → fetchesNext s ∧ nextInstr s = .ok .reti

/-- R18, R20, R22, R24, R29, R84: an instruction changes a register, the flag, `PC`, the stack, `IE` or `RUN` only where
the access matrix has it write, and emits only where its rule says so; it takes no input and spends no budget. -/
def Obligations.OnlyNamedWritersWrite : Prop :=
  ∀ (i : Instr) (s t : State), exec i s = .next t →
    ((writes i).a = false → t.a = s.a) ∧ ((writes i).b = false → t.b = s.b) ∧ ((writes i).w = false → t.w = s.w) ∧
    ((writes i).x = false → t.x = s.x) ∧ ((writes i).y = false → t.y = s.y) ∧ ((writes i).c = false → t.c = s.c) ∧
    ((writes i).pc = false → t.pc = s.pc) ∧ ((writes i).stack = false → t.sp = s.sp ∧ t.stk = s.stk) ∧
    ((writes i).ie = false → t.ie = s.ie) ∧ ((writes i).run = false → t.run = s.run) ∧
    ((writes i).event = false → t.events = s.events) ∧ t.inputs = s.inputs ∧ t.budget = s.budget

/-- R29, R84: an instruction changes no byte of data memory but the cell it stores to. -/
def Obligations.OnlyStoredCellChanges : Prop :=
  ∀ (i : Instr) (s t : State), exec i s = .next t →
    (storeAddr s i = none → t.ram = s.ram) ∧
    ∀ e : DataAddr, storeAddr s i ≠ some e → readCell t e = readCell s e

/-- R35, R37, R39: an instruction that completes stores only to general RAM, never to the stack window. -/
def Obligations.StoresStayInRam : Prop :=
  ∀ (i : Instr) (s t : State) (e : DataAddr), exec i s = .next t → storeAddr s i = some e →
    inRam s.par e = true ∧ e.toNat < 0x3C0

/-- R11, R73: a step only appends to the observation; a `Trace` of `PC` stands before whatever a fetched instruction
emits. -/
def Obligations.EventsOnlyAppend : Prop :=
  ∀ s t : State, step s = .next t → ∃ es, t.events = s.events ++ es ∧
    (fetchesNext s → ∃ rest, es = .trace s.pc :: rest)

/-- No instruction is refused, in any state: every constructor has its meaning (R60, R66, R134). -/
def Obligations.ExecNeverRefuses : Prop :=
  ∀ (i : Instr) (s : State) (r : Refusal), exec i s ≠ .refused r

/-- R122, S7: a step at an unassigned opcode moves `PC` past its word or words and reports it; the register file, the
flag, data memory, the stack and `IE` are unchanged. -/
def Obligations.IllegalStepIdempotence : Prop :=
  ∀ (s : State) (op : OpWord), fetchesNext s → nextInstr s = .ok (.illegal op) →
    op = progRead s.prog s.pc ∧ ∃ t, step s = .next t ∧ t = { s with
      pc := s.pc + if tw s.par op then 2 else 1, inputs := s.inputs.tail, budget := t.budget
      events := s.events ++ [.trace s.pc, .illegal s.pc op] }
end

