-- ==== Sys2Proof/Laws/Decode.lean ====
section
/-! SUPPORT. Everything the dispatcher and the decoder can answer, said once; what a handler stands for, part by part. -/

namespace Sys2Proof

/-- Everything `DECODE` can give (R60, R62, R63). -/
theorem dispatch_cases (m : DecodeMap) (op : OpWord) :
    (isFixedOp op = true ∧ op &&& 0x3F0#10 = 0x230#10 ∧ dispatch m op = .ldiA) ∨
    (isFixedOp op = true ∧ op = 0x244#10 ∧ dispatch m op = .bnz) ∨
    (isFixedOp op = false ∧ dispatch m op = .row (handlerAt m op)) := by
  unfold dispatch isFixedOp
  by_cases h1 : op &&& 0x3F0#10 = 0x230#10
  · simp [h1]
  · by_cases h2 : op = 0x244#10
    · subst h2; simp
    · simp [h1, h2]

/-- Everything the decoder can answer (R55, R60, R65). -/
theorem decode_ok {p : Params} {op w2 : OpWord} {i : Instr} (h : decode p op w2 = .ok i) :
    (isFixedOp op = true ∧ dispatch p.decodeMap op = .ldiA ∧ i = .ldiA (literal op)) ∨
    (isFixedOp op = true ∧ dispatch p.decodeMap op = .bnz ∧ i = .bnz) ∨
    ∃ hd : Handler, isFixedOp op = false ∧ dispatch p.decodeMap op = .row hd ∧ hd.lengthOk (tw p op) = true ∧
      i = hd.toInstr op (if tw p op then w2 else 0) := by
  rcases dispatch_cases p.decodeMap op with ⟨hf, -, hd⟩ | ⟨hf, -, hd⟩ | ⟨hf, hd⟩
  · simp only [decode, hd, Except.ok.injEq] at h
    exact .inl ⟨hf, hd, h.symm⟩
  · simp only [decode, hd, Except.ok.injEq] at h
    exact .inr (.inl ⟨hf, hd, h.symm⟩)
  · simp only [decode, hd] at h
    split at h
    · exact .inr (.inr ⟨_, hf, hd, ‹_›, (Except.ok.inj h).symm⟩)
    · cases h

/-- The fixed opcodes are one word (R64). -/
theorem tw_fixed {p : Params} {op : OpWord} (h : isFixedOp op = true) : tw p op = false := by
  simp [tw, h]

@[simp] theorem SrcMode.operand_mode (o : SrcMode) (op w2 : OpWord) : (o.operand op w2).mode = o := by
  rcases o with _ | (_ | _) <;> rfl

@[simp] theorem MemMode.operand_mode (m : MemMode) (w2 : OpWord) : (m.operand w2).mode = m := by
  cases m <;> rfl

/-- What a handler stands for has that handler's schema (R60). -/
@[simp] theorem Handler.toInstr_schema (h : Handler) (op w2 : OpWord) : (h.toInstr op w2).schema = .row h := by
  cases h <;> simp [Handler.toInstr, Instr.schema]

theorem SrcMode.operand_literal {o : SrcMode} {op w2 : OpWord} {n : Nibble}
    (hn : (o.operand op w2).literal = some n) : n = Sys2Proof.literal op := by
  cases o
  · exact (Option.some.inj hn).symm
  · cases hn

/-- Its literal is `op[3:0]` (R59). -/
theorem Handler.toInstr_literal {h : Handler} {op w2 : OpWord} {n : Nibble}
    (hn : (h.toInstr op w2).literal = some n) : n = Sys2Proof.literal op := by
  cases h <;> simp only [Handler.toInstr, Instr.literal, reduceCtorEq, Option.some.injEq] at hn
  all_goals first | exact hn.symm | exact SrcMode.operand_literal hn

/-- The opcode word it keeps is the one fetched. -/
theorem Handler.toInstr_opcodeWord {h : Handler} {op w2 o : OpWord}
    (ho : (h.toInstr op w2).opcodeWord = some o) : o = op := by
  cases h <;> simp only [Handler.toInstr, Instr.opcodeWord, reduceCtorEq, Option.some.injEq] at ho
  all_goals exact ho.symm

theorem mem_allOps (op : OpWord) : op ∈ allOps :=
  List.mem_map.2 ⟨op.toNat, by simp [op.isLt], by simp⟩

/-- A two-word `ILLEGAL` is one (R66). -/
theorem twoWordIllegal_of {p : Params} {op : OpWord} (ht : tw p op = true)
    (hd : dispatch p.decodeMap op = .row .illegal) : p.twoWordIllegal = true :=
  List.any_eq_true.2 ⟨op, mem_allOps op, by simp [ht, hd]⟩

end Sys2Proof
end

