-- ==== Sys2Proof/Laws/Memory.lean ====
section
/-! SUPPORT. The laws of a store: what a read gives after a write or an erase, and that every operation keeps the
canonical form. -/

namespace Sys2Proof.Machine

@[simp] theorem Memory.read_nil (a : Nat) : Memory.read [] a = none := rfl

theorem Memory.read_write_same (m : Memory) (a : Nat) (v : BitVec 8) : (m.write a v).read a = some v := by
  induction m with
  | nil => simp [Memory.write, Memory.read]
  | cons e m ih =>
    obtain ⟨k, u⟩ := e
    simp only [Memory.write]
    split
    · simp [Memory.read]
    · split
      · simp [Memory.read]
      · have : k ≠ a := by omega
        simp [Memory.read, this, ih]

theorem Memory.read_write_other (m : Memory) (a b : Nat) (v : BitVec 8) (h : b ≠ a) :
    (m.write a v).read b = m.read b := by
  induction m with
  | nil => simp [Memory.write, Memory.read, h.symm]
  | cons e m ih =>
    obtain ⟨k, u⟩ := e
    simp only [Memory.write]
    split
    · simp [Memory.read, h.symm]
    · split
      · rename_i h1 h2
        subst h2
        simp [Memory.read, h.symm]
      · simp [Memory.read, ih]

/-- A read after a write, in one equation. -/
theorem Memory.read_write (m : Memory) (a b : Nat) (v : BitVec 8) :
    (m.write a v).read b = if b = a then some v else m.read b := by
  split
  · subst_vars; exact m.read_write_same _ v
  · exact m.read_write_other a b v ‹_›

theorem Memory.mem_write {m : Memory} {a : Nat} {v : BitVec 8} {e : Host.Cell} (h : e ∈ m.write a v) :
    e = (a, v) ∨ e ∈ m := by
  induction m with
  | nil => simpa [Memory.write] using h
  | cons c m ih =>
    obtain ⟨k, u⟩ := c
    simp only [Memory.write] at h
    split at h
    · simpa using h
    · split at h
      · rcases List.mem_cons.1 h with h | h
        · exact .inl h
        · exact .inr (List.mem_cons_of_mem _ h)
      · rcases List.mem_cons.1 h with h | h
        · exact .inr (h ▸ List.mem_cons_self)
        · exact (ih h).imp_right (List.mem_cons_of_mem _)

theorem Memory.mem_erase {m : Memory} {a : Nat} {e : Host.Cell} (h : e ∈ m.erase a) : e ∈ m := by
  induction m with
  | nil => simp [Memory.erase] at h
  | cons c m ih =>
    obtain ⟨k, u⟩ := c
    simp only [Memory.erase] at h
    split at h
    · exact List.mem_cons_of_mem _ h
    · rcases List.mem_cons.1 h with h | h
      · exact h ▸ List.mem_cons_self
      · exact List.mem_cons_of_mem _ (ih h)

theorem Memory.sorted_cons (k : Nat) (u : BitVec 8) (m : Memory) :
    Memory.sorted ((k, u) :: m) = true ↔ (∀ e ∈ m, k < e.1) ∧ m.sorted = true := by
  simp [Memory.sorted, List.pairwise_cons]

theorem Memory.sorted_write {m : Memory} (h : m.sorted = true) (a : Nat) (v : BitVec 8) :
    (m.write a v).sorted = true := by
  induction m with
  | nil => simp [Memory.write, Memory.sorted]
  | cons c m ih =>
    obtain ⟨k, u⟩ := c
    obtain ⟨hk, hm⟩ := (Memory.sorted_cons k u m).1 h
    simp only [Memory.write]
    split
    · refine (Memory.sorted_cons _ _ _).2 ⟨fun e he => ?_, h⟩
      rcases List.mem_cons.1 he with he | he
      · simpa [he] using ‹a < k›
      · have := hk e he; omega
    · split
      · subst_vars; exact (Memory.sorted_cons _ _ _).2 ⟨hk, hm⟩
      · refine (Memory.sorted_cons _ _ _).2 ⟨fun e he => ?_, ih hm⟩
        rcases Memory.mem_write he with he | he
        · simp [he]; omega
        · exact hk e he

theorem Memory.sorted_erase {m : Memory} (h : m.sorted = true) (a : Nat) : (m.erase a).sorted = true := by
  induction m with
  | nil => simp [Memory.erase, Memory.sorted]
  | cons c m ih =>
    obtain ⟨k, u⟩ := c
    obtain ⟨hk, hm⟩ := (Memory.sorted_cons k u m).1 h
    simp only [Memory.erase]
    split
    · exact hm
    · exact (Memory.sorted_cons _ _ _).2 ⟨fun e he => hk e (Memory.mem_erase he), ih hm⟩

/-- A write of a 4-bit value in the data space keeps the data store's canonical form. -/
theorem Memory.wf_write {m : Memory} (h : m.wf = true) {a : Nat} {v : BitVec 8} (ha : a < 1024)
    (hv : v.toNat < 16) : (m.write a v).wf = true := by
  simp only [Memory.wf, Bool.and_eq_true, List.all_eq_true, decide_eq_true_eq] at h ⊢
  refine ⟨Memory.sorted_write h.1 a v, fun e he => ?_⟩
  rcases Memory.mem_write he with he | he
  · subst he; exact ⟨ha, hv⟩
  · exact h.2 e he

/-- Placing a byte keeps the program store's canonical form. -/
theorem Memory.progWf_placeByte {m : Memory} (h : m.progWf = true) {a : Nat} (ha : a < 32768) (v : BitVec 8) :
    (placeByte m a v).progWf = true := by
  simp only [Memory.progWf, Bool.and_eq_true, List.all_eq_true, decide_eq_true_eq] at h ⊢
  unfold placeByte
  split
  · exact ⟨Memory.sorted_erase h.1 a, fun e he => h.2 e (Memory.mem_erase he)⟩
  · refine ⟨Memory.sorted_write h.1 a v, fun e he => ?_⟩
    rcases Memory.mem_write he with he | he
    · subst he; exact ⟨ha, ‹_›⟩
    · exact h.2 e he

/-- Placing a word keeps the program store's canonical form. -/
theorem Memory.progWf_placeWord {m : Memory} (h : m.progWf = true) (a : ProgAddr) (w : OpWord) :
    (placeWord m a w).progWf = true := by
  have ha := a.isLt
  exact Memory.progWf_placeByte (Memory.progWf_placeByte h (by omega) _) (by omega) _

end Sys2Proof.Machine
end

