-- ==== Sys2Proof/Laws/State.lean ====
section
/-! SUPPORT. Each named update of the state, field by field: what it writes and what it leaves. -/

namespace Sys2Proof.Machine

/-! ## emit -/

@[simp] theorem emit_a (s : State) (e : Event) : (emit s e).a = s.a := rfl
@[simp] theorem emit_b (s : State) (e : Event) : (emit s e).b = s.b := rfl
@[simp] theorem emit_w (s : State) (e : Event) : (emit s e).w = s.w := rfl
@[simp] theorem emit_x (s : State) (e : Event) : (emit s e).x = s.x := rfl
@[simp] theorem emit_y (s : State) (e : Event) : (emit s e).y = s.y := rfl
@[simp] theorem emit_c (s : State) (e : Event) : (emit s e).c = s.c := rfl
@[simp] theorem emit_pc (s : State) (e : Event) : (emit s e).pc = s.pc := rfl
@[simp] theorem emit_sp (s : State) (e : Event) : (emit s e).sp = s.sp := rfl
@[simp] theorem emit_stk (s : State) (e : Event) : (emit s e).stk = s.stk := rfl
@[simp] theorem emit_ie (s : State) (e : Event) : (emit s e).ie = s.ie := rfl
@[simp] theorem emit_tb (s : State) (e : Event) : (emit s e).tb = s.tb := rfl
@[simp] theorem emit_run (s : State) (e : Event) : (emit s e).run = s.run := rfl
@[simp] theorem emit_ram (s : State) (e : Event) : (emit s e).ram = s.ram := rfl
@[simp] theorem emit_prog (s : State) (e : Event) : (emit s e).prog = s.prog := rfl
@[simp] theorem emit_par (s : State) (e : Event) : (emit s e).par = s.par := rfl
@[simp] theorem emit_inputs (s : State) (e : Event) : (emit s e).inputs = s.inputs := rfl
@[simp] theorem emit_events (s : State) (e : Event) : (emit s e).events = s.events ++ [e] := rfl
@[simp] theorem emit_budget (s : State) (e : Event) : (emit s e).budget = s.budget := rfl
@[simp] theorem emit_draws (s : State) (e : Event) : (emit s e).draws = s.draws := rfl

/-! ## drawCarry -/

@[simp] theorem drawCarry_a (s : State) : (drawCarry s).a = s.a := rfl
@[simp] theorem drawCarry_b (s : State) : (drawCarry s).b = s.b := rfl
@[simp] theorem drawCarry_w (s : State) : (drawCarry s).w = s.w := rfl
@[simp] theorem drawCarry_x (s : State) : (drawCarry s).x = s.x := rfl
@[simp] theorem drawCarry_y (s : State) : (drawCarry s).y = s.y := rfl
@[simp] theorem drawCarry_c (s : State) : (drawCarry s).c = Config.freeBit s.draws := rfl
@[simp] theorem drawCarry_pc (s : State) : (drawCarry s).pc = s.pc := rfl
@[simp] theorem drawCarry_sp (s : State) : (drawCarry s).sp = s.sp := rfl
@[simp] theorem drawCarry_stk (s : State) : (drawCarry s).stk = s.stk := rfl
@[simp] theorem drawCarry_ie (s : State) : (drawCarry s).ie = s.ie := rfl
@[simp] theorem drawCarry_tb (s : State) : (drawCarry s).tb = s.tb := rfl
@[simp] theorem drawCarry_run (s : State) : (drawCarry s).run = s.run := rfl
@[simp] theorem drawCarry_ram (s : State) : (drawCarry s).ram = s.ram := rfl
@[simp] theorem drawCarry_prog (s : State) : (drawCarry s).prog = s.prog := rfl
@[simp] theorem drawCarry_par (s : State) : (drawCarry s).par = s.par := rfl
@[simp] theorem drawCarry_inputs (s : State) : (drawCarry s).inputs = s.inputs := rfl
@[simp] theorem drawCarry_events (s : State) : (drawCarry s).events = s.events := rfl
@[simp] theorem drawCarry_budget (s : State) : (drawCarry s).budget = s.budget := rfl
@[simp] theorem drawCarry_draws (s : State) : (drawCarry s).draws = s.draws + 1 := rfl

/-! ## setAC -/

@[simp] theorem setAC_a (r : Nibble × BitVec 1) (s : State) : (setAC r s).a = r.1 := rfl
@[simp] theorem setAC_b (r : Nibble × BitVec 1) (s : State) : (setAC r s).b = s.b := rfl
@[simp] theorem setAC_w (r : Nibble × BitVec 1) (s : State) : (setAC r s).w = s.w := rfl
@[simp] theorem setAC_x (r : Nibble × BitVec 1) (s : State) : (setAC r s).x = s.x := rfl
@[simp] theorem setAC_y (r : Nibble × BitVec 1) (s : State) : (setAC r s).y = s.y := rfl
@[simp] theorem setAC_c (r : Nibble × BitVec 1) (s : State) : (setAC r s).c = r.2 := rfl
@[simp] theorem setAC_pc (r : Nibble × BitVec 1) (s : State) : (setAC r s).pc = s.pc := rfl
@[simp] theorem setAC_sp (r : Nibble × BitVec 1) (s : State) : (setAC r s).sp = s.sp := rfl
@[simp] theorem setAC_stk (r : Nibble × BitVec 1) (s : State) : (setAC r s).stk = s.stk := rfl
@[simp] theorem setAC_ie (r : Nibble × BitVec 1) (s : State) : (setAC r s).ie = s.ie := rfl
@[simp] theorem setAC_tb (r : Nibble × BitVec 1) (s : State) : (setAC r s).tb = s.tb := rfl
@[simp] theorem setAC_run (r : Nibble × BitVec 1) (s : State) : (setAC r s).run = s.run := rfl
@[simp] theorem setAC_ram (r : Nibble × BitVec 1) (s : State) : (setAC r s).ram = s.ram := rfl
@[simp] theorem setAC_prog (r : Nibble × BitVec 1) (s : State) : (setAC r s).prog = s.prog := rfl
@[simp] theorem setAC_par (r : Nibble × BitVec 1) (s : State) : (setAC r s).par = s.par := rfl
@[simp] theorem setAC_inputs (r : Nibble × BitVec 1) (s : State) : (setAC r s).inputs = s.inputs := rfl
@[simp] theorem setAC_events (r : Nibble × BitVec 1) (s : State) : (setAC r s).events = s.events := rfl
@[simp] theorem setAC_budget (r : Nibble × BitVec 1) (s : State) : (setAC r s).budget = s.budget := rfl
@[simp] theorem setAC_draws (r : Nibble × BitVec 1) (s : State) : (setAC r s).draws = s.draws := rfl

/-! ## writeData -/

@[simp] theorem writeData_a (r : DataReg) (v : Nibble) (s : State) : (writeData r v s).a = if r = .a then v else s.a := by cases r <;> rfl
@[simp] theorem writeData_b (r : DataReg) (v : Nibble) (s : State) : (writeData r v s).b = if r = .b then v else s.b := by cases r <;> rfl
@[simp] theorem writeData_w (r : DataReg) (v : Nibble) (s : State) : (writeData r v s).w = if r = .w then v else s.w := by cases r <;> rfl
@[simp] theorem writeData_x (r : DataReg) (v : Nibble) (s : State) : (writeData r v s).x = s.x := by cases r <;> rfl
@[simp] theorem writeData_y (r : DataReg) (v : Nibble) (s : State) : (writeData r v s).y = s.y := by cases r <;> rfl
@[simp] theorem writeData_c (r : DataReg) (v : Nibble) (s : State) : (writeData r v s).c = s.c := by cases r <;> rfl
@[simp] theorem writeData_pc (r : DataReg) (v : Nibble) (s : State) : (writeData r v s).pc = s.pc := by cases r <;> rfl
@[simp] theorem writeData_sp (r : DataReg) (v : Nibble) (s : State) : (writeData r v s).sp = s.sp := by cases r <;> rfl
@[simp] theorem writeData_stk (r : DataReg) (v : Nibble) (s : State) : (writeData r v s).stk = s.stk := by cases r <;> rfl
@[simp] theorem writeData_ie (r : DataReg) (v : Nibble) (s : State) : (writeData r v s).ie = s.ie := by cases r <;> rfl
@[simp] theorem writeData_tb (r : DataReg) (v : Nibble) (s : State) : (writeData r v s).tb = s.tb := by cases r <;> rfl
@[simp] theorem writeData_run (r : DataReg) (v : Nibble) (s : State) : (writeData r v s).run = s.run := by cases r <;> rfl
@[simp] theorem writeData_ram (r : DataReg) (v : Nibble) (s : State) : (writeData r v s).ram = s.ram := by cases r <;> rfl
@[simp] theorem writeData_prog (r : DataReg) (v : Nibble) (s : State) : (writeData r v s).prog = s.prog := by cases r <;> rfl
@[simp] theorem writeData_par (r : DataReg) (v : Nibble) (s : State) : (writeData r v s).par = s.par := by cases r <;> rfl
@[simp] theorem writeData_inputs (r : DataReg) (v : Nibble) (s : State) : (writeData r v s).inputs = s.inputs := by cases r <;> rfl
@[simp] theorem writeData_events (r : DataReg) (v : Nibble) (s : State) : (writeData r v s).events = s.events := by cases r <;> rfl
@[simp] theorem writeData_budget (r : DataReg) (v : Nibble) (s : State) : (writeData r v s).budget = s.budget := by cases r <;> rfl
@[simp] theorem writeData_draws (r : DataReg) (v : Nibble) (s : State) : (writeData r v s).draws = s.draws := by cases r <;> rfl

/-! ## writeIdx -/

@[simp] theorem writeIdx_a (i : IdxReg) (v : BitVec 10) (s : State) : (writeIdx i v s).a = s.a := by cases i <;> rfl
@[simp] theorem writeIdx_b (i : IdxReg) (v : BitVec 10) (s : State) : (writeIdx i v s).b = s.b := by cases i <;> rfl
@[simp] theorem writeIdx_w (i : IdxReg) (v : BitVec 10) (s : State) : (writeIdx i v s).w = s.w := by cases i <;> rfl
@[simp] theorem writeIdx_x (i : IdxReg) (v : BitVec 10) (s : State) : (writeIdx i v s).x = if i = .x then v else s.x := by cases i <;> rfl
@[simp] theorem writeIdx_y (i : IdxReg) (v : BitVec 10) (s : State) : (writeIdx i v s).y = if i = .y then v else s.y := by cases i <;> rfl
@[simp] theorem writeIdx_c (i : IdxReg) (v : BitVec 10) (s : State) : (writeIdx i v s).c = s.c := by cases i <;> rfl
@[simp] theorem writeIdx_pc (i : IdxReg) (v : BitVec 10) (s : State) : (writeIdx i v s).pc = s.pc := by cases i <;> rfl
@[simp] theorem writeIdx_sp (i : IdxReg) (v : BitVec 10) (s : State) : (writeIdx i v s).sp = s.sp := by cases i <;> rfl
@[simp] theorem writeIdx_stk (i : IdxReg) (v : BitVec 10) (s : State) : (writeIdx i v s).stk = s.stk := by cases i <;> rfl
@[simp] theorem writeIdx_ie (i : IdxReg) (v : BitVec 10) (s : State) : (writeIdx i v s).ie = s.ie := by cases i <;> rfl
@[simp] theorem writeIdx_tb (i : IdxReg) (v : BitVec 10) (s : State) : (writeIdx i v s).tb = s.tb := by cases i <;> rfl
@[simp] theorem writeIdx_run (i : IdxReg) (v : BitVec 10) (s : State) : (writeIdx i v s).run = s.run := by cases i <;> rfl
@[simp] theorem writeIdx_ram (i : IdxReg) (v : BitVec 10) (s : State) : (writeIdx i v s).ram = s.ram := by cases i <;> rfl
@[simp] theorem writeIdx_prog (i : IdxReg) (v : BitVec 10) (s : State) : (writeIdx i v s).prog = s.prog := by cases i <;> rfl
@[simp] theorem writeIdx_par (i : IdxReg) (v : BitVec 10) (s : State) : (writeIdx i v s).par = s.par := by cases i <;> rfl
@[simp] theorem writeIdx_inputs (i : IdxReg) (v : BitVec 10) (s : State) : (writeIdx i v s).inputs = s.inputs := by cases i <;> rfl
@[simp] theorem writeIdx_events (i : IdxReg) (v : BitVec 10) (s : State) : (writeIdx i v s).events = s.events := by cases i <;> rfl
@[simp] theorem writeIdx_budget (i : IdxReg) (v : BitVec 10) (s : State) : (writeIdx i v s).budget = s.budget := by cases i <;> rfl
@[simp] theorem writeIdx_draws (i : IdxReg) (v : BitVec 10) (s : State) : (writeIdx i v s).draws = s.draws := by cases i <;> rfl

/-! ## autoIdx -/

@[simp] theorem autoIdx_a (i : IdxReg) (d : Dir) (s : State) : (autoIdx i d s).a = s.a := by cases i <;> rfl
@[simp] theorem autoIdx_b (i : IdxReg) (d : Dir) (s : State) : (autoIdx i d s).b = s.b := by cases i <;> rfl
@[simp] theorem autoIdx_w (i : IdxReg) (d : Dir) (s : State) : (autoIdx i d s).w = s.w := by cases i <;> rfl
@[simp] theorem autoIdx_x (i : IdxReg) (d : Dir) (s : State) : (autoIdx i d s).x = if i = .x then stepIdx s.par d s.x else s.x := by cases i <;> rfl
@[simp] theorem autoIdx_y (i : IdxReg) (d : Dir) (s : State) : (autoIdx i d s).y = if i = .y then stepIdx s.par d s.y else s.y := by cases i <;> rfl
@[simp] theorem autoIdx_c (i : IdxReg) (d : Dir) (s : State) : (autoIdx i d s).c = s.c := by cases i <;> rfl
@[simp] theorem autoIdx_pc (i : IdxReg) (d : Dir) (s : State) : (autoIdx i d s).pc = s.pc := by cases i <;> rfl
@[simp] theorem autoIdx_sp (i : IdxReg) (d : Dir) (s : State) : (autoIdx i d s).sp = s.sp := by cases i <;> rfl
@[simp] theorem autoIdx_stk (i : IdxReg) (d : Dir) (s : State) : (autoIdx i d s).stk = s.stk := by cases i <;> rfl
@[simp] theorem autoIdx_ie (i : IdxReg) (d : Dir) (s : State) : (autoIdx i d s).ie = s.ie := by cases i <;> rfl
@[simp] theorem autoIdx_tb (i : IdxReg) (d : Dir) (s : State) : (autoIdx i d s).tb = s.tb := by cases i <;> rfl
@[simp] theorem autoIdx_run (i : IdxReg) (d : Dir) (s : State) : (autoIdx i d s).run = s.run := by cases i <;> rfl
@[simp] theorem autoIdx_ram (i : IdxReg) (d : Dir) (s : State) : (autoIdx i d s).ram = s.ram := by cases i <;> rfl
@[simp] theorem autoIdx_prog (i : IdxReg) (d : Dir) (s : State) : (autoIdx i d s).prog = s.prog := by cases i <;> rfl
@[simp] theorem autoIdx_par (i : IdxReg) (d : Dir) (s : State) : (autoIdx i d s).par = s.par := by cases i <;> rfl
@[simp] theorem autoIdx_inputs (i : IdxReg) (d : Dir) (s : State) : (autoIdx i d s).inputs = s.inputs := by cases i <;> rfl
@[simp] theorem autoIdx_events (i : IdxReg) (d : Dir) (s : State) : (autoIdx i d s).events = s.events := by cases i <;> rfl
@[simp] theorem autoIdx_budget (i : IdxReg) (d : Dir) (s : State) : (autoIdx i d s).budget = s.budget := by cases i <;> rfl
@[simp] theorem autoIdx_draws (i : IdxReg) (d : Dir) (s : State) : (autoIdx i d s).draws = s.draws := by cases i <;> rfl

/-! ## skipNext -/

@[simp] theorem skipNext_a (s : State) : (skipNext s).a = s.a := rfl
@[simp] theorem skipNext_b (s : State) : (skipNext s).b = s.b := rfl
@[simp] theorem skipNext_w (s : State) : (skipNext s).w = s.w := rfl
@[simp] theorem skipNext_x (s : State) : (skipNext s).x = s.x := rfl
@[simp] theorem skipNext_y (s : State) : (skipNext s).y = s.y := rfl
@[simp] theorem skipNext_c (s : State) : (skipNext s).c = s.c := rfl
@[simp] theorem skipNext_pc (s : State) : (skipNext s).pc = s.pc + BitVec.ofNat 14 (wordCount s.par (progRead s.prog s.pc)) := rfl
@[simp] theorem skipNext_sp (s : State) : (skipNext s).sp = s.sp := rfl
@[simp] theorem skipNext_stk (s : State) : (skipNext s).stk = s.stk := rfl
@[simp] theorem skipNext_ie (s : State) : (skipNext s).ie = s.ie := rfl
@[simp] theorem skipNext_tb (s : State) : (skipNext s).tb = s.tb := rfl
@[simp] theorem skipNext_run (s : State) : (skipNext s).run = s.run := rfl
@[simp] theorem skipNext_ram (s : State) : (skipNext s).ram = s.ram := rfl
@[simp] theorem skipNext_prog (s : State) : (skipNext s).prog = s.prog := rfl
@[simp] theorem skipNext_par (s : State) : (skipNext s).par = s.par := rfl
@[simp] theorem skipNext_inputs (s : State) : (skipNext s).inputs = s.inputs := rfl
@[simp] theorem skipNext_events (s : State) : (skipNext s).events = s.events := rfl
@[simp] theorem skipNext_budget (s : State) : (skipNext s).budget = s.budget := rfl
@[simp] theorem skipNext_draws (s : State) : (skipNext s).draws = s.draws := rfl

/-! ## skipIf -/

@[simp] theorem skipIf_a (b : Bool) (s : State) : (skipIf b s).a = s.a := by cases b <;> rfl
@[simp] theorem skipIf_b (b : Bool) (s : State) : (skipIf b s).b = s.b := by cases b <;> rfl
@[simp] theorem skipIf_w (b : Bool) (s : State) : (skipIf b s).w = s.w := by cases b <;> rfl
@[simp] theorem skipIf_x (b : Bool) (s : State) : (skipIf b s).x = s.x := by cases b <;> rfl
@[simp] theorem skipIf_y (b : Bool) (s : State) : (skipIf b s).y = s.y := by cases b <;> rfl
@[simp] theorem skipIf_c (b : Bool) (s : State) : (skipIf b s).c = s.c := by cases b <;> rfl
@[simp] theorem skipIf_pc (b : Bool) (s : State) : (skipIf b s).pc = if b then (skipNext s).pc else s.pc := by cases b <;> rfl
@[simp] theorem skipIf_sp (b : Bool) (s : State) : (skipIf b s).sp = s.sp := by cases b <;> rfl
@[simp] theorem skipIf_stk (b : Bool) (s : State) : (skipIf b s).stk = s.stk := by cases b <;> rfl
@[simp] theorem skipIf_ie (b : Bool) (s : State) : (skipIf b s).ie = s.ie := by cases b <;> rfl
@[simp] theorem skipIf_tb (b : Bool) (s : State) : (skipIf b s).tb = s.tb := by cases b <;> rfl
@[simp] theorem skipIf_run (b : Bool) (s : State) : (skipIf b s).run = s.run := by cases b <;> rfl
@[simp] theorem skipIf_ram (b : Bool) (s : State) : (skipIf b s).ram = s.ram := by cases b <;> rfl
@[simp] theorem skipIf_prog (b : Bool) (s : State) : (skipIf b s).prog = s.prog := by cases b <;> rfl
@[simp] theorem skipIf_par (b : Bool) (s : State) : (skipIf b s).par = s.par := by cases b <;> rfl
@[simp] theorem skipIf_inputs (b : Bool) (s : State) : (skipIf b s).inputs = s.inputs := by cases b <;> rfl
@[simp] theorem skipIf_events (b : Bool) (s : State) : (skipIf b s).events = s.events := by cases b <;> rfl
@[simp] theorem skipIf_budget (b : Bool) (s : State) : (skipIf b s).budget = s.budget := by cases b <;> rfl
@[simp] theorem skipIf_draws (b : Bool) (s : State) : (skipIf b s).draws = s.draws := by cases b <;> rfl

/-! ## jumpIf -/

@[simp] theorem jumpIf_a (o : Option ProgAddr) (s : State) : (jumpIf o s).a = s.a := by cases o <;> rfl
@[simp] theorem jumpIf_b (o : Option ProgAddr) (s : State) : (jumpIf o s).b = s.b := by cases o <;> rfl
@[simp] theorem jumpIf_w (o : Option ProgAddr) (s : State) : (jumpIf o s).w = s.w := by cases o <;> rfl
@[simp] theorem jumpIf_x (o : Option ProgAddr) (s : State) : (jumpIf o s).x = s.x := by cases o <;> rfl
@[simp] theorem jumpIf_y (o : Option ProgAddr) (s : State) : (jumpIf o s).y = s.y := by cases o <;> rfl
@[simp] theorem jumpIf_c (o : Option ProgAddr) (s : State) : (jumpIf o s).c = s.c := by cases o <;> rfl
@[simp] theorem jumpIf_pc (o : Option ProgAddr) (s : State) : (jumpIf o s).pc = o.getD s.pc := by cases o <;> rfl
@[simp] theorem jumpIf_sp (o : Option ProgAddr) (s : State) : (jumpIf o s).sp = s.sp := by cases o <;> rfl
@[simp] theorem jumpIf_stk (o : Option ProgAddr) (s : State) : (jumpIf o s).stk = s.stk := by cases o <;> rfl
@[simp] theorem jumpIf_ie (o : Option ProgAddr) (s : State) : (jumpIf o s).ie = s.ie := by cases o <;> rfl
@[simp] theorem jumpIf_tb (o : Option ProgAddr) (s : State) : (jumpIf o s).tb = s.tb := by cases o <;> rfl
@[simp] theorem jumpIf_run (o : Option ProgAddr) (s : State) : (jumpIf o s).run = s.run := by cases o <;> rfl
@[simp] theorem jumpIf_ram (o : Option ProgAddr) (s : State) : (jumpIf o s).ram = s.ram := by cases o <;> rfl
@[simp] theorem jumpIf_prog (o : Option ProgAddr) (s : State) : (jumpIf o s).prog = s.prog := by cases o <;> rfl
@[simp] theorem jumpIf_par (o : Option ProgAddr) (s : State) : (jumpIf o s).par = s.par := by cases o <;> rfl
@[simp] theorem jumpIf_inputs (o : Option ProgAddr) (s : State) : (jumpIf o s).inputs = s.inputs := by cases o <;> rfl
@[simp] theorem jumpIf_events (o : Option ProgAddr) (s : State) : (jumpIf o s).events = s.events := by cases o <;> rfl
@[simp] theorem jumpIf_budget (o : Option ProgAddr) (s : State) : (jumpIf o s).budget = s.budget := by cases o <;> rfl
@[simp] theorem jumpIf_draws (o : Option ProgAddr) (s : State) : (jumpIf o s).draws = s.draws := by cases o <;> rfl

/-! ## haltWith -/

@[simp] theorem haltWith_a (k : HaltKind) (s : State) : (haltWith k s).a = s.a := rfl
@[simp] theorem haltWith_b (k : HaltKind) (s : State) : (haltWith k s).b = s.b := rfl
@[simp] theorem haltWith_w (k : HaltKind) (s : State) : (haltWith k s).w = s.w := rfl
@[simp] theorem haltWith_x (k : HaltKind) (s : State) : (haltWith k s).x = s.x := rfl
@[simp] theorem haltWith_y (k : HaltKind) (s : State) : (haltWith k s).y = s.y := rfl
@[simp] theorem haltWith_c (k : HaltKind) (s : State) : (haltWith k s).c = s.c := rfl
@[simp] theorem haltWith_pc (k : HaltKind) (s : State) : (haltWith k s).pc = s.pc := rfl
@[simp] theorem haltWith_sp (k : HaltKind) (s : State) : (haltWith k s).sp = s.sp := rfl
@[simp] theorem haltWith_stk (k : HaltKind) (s : State) : (haltWith k s).stk = s.stk := rfl
@[simp] theorem haltWith_ie (k : HaltKind) (s : State) : (haltWith k s).ie = s.ie := rfl
@[simp] theorem haltWith_tb (k : HaltKind) (s : State) : (haltWith k s).tb = s.tb := rfl
@[simp] theorem haltWith_run (k : HaltKind) (s : State) : (haltWith k s).run = RunState.halted := rfl
@[simp] theorem haltWith_ram (k : HaltKind) (s : State) : (haltWith k s).ram = s.ram := rfl
@[simp] theorem haltWith_prog (k : HaltKind) (s : State) : (haltWith k s).prog = s.prog := rfl
@[simp] theorem haltWith_par (k : HaltKind) (s : State) : (haltWith k s).par = s.par := rfl
@[simp] theorem haltWith_inputs (k : HaltKind) (s : State) : (haltWith k s).inputs = s.inputs := rfl
@[simp] theorem haltWith_events (k : HaltKind) (s : State) : (haltWith k s).events = s.events ++ [.halt k] := rfl
@[simp] theorem haltWith_budget (k : HaltKind) (s : State) : (haltWith k s).budget = s.budget := rfl
@[simp] theorem haltWith_draws (k : HaltKind) (s : State) : (haltWith k s).draws = s.draws := rfl

/-! ## charge -/

@[simp] theorem charge_a (n : Nat) (s : State) : (charge n s).a = s.a := rfl
@[simp] theorem charge_b (n : Nat) (s : State) : (charge n s).b = s.b := rfl
@[simp] theorem charge_w (n : Nat) (s : State) : (charge n s).w = s.w := rfl
@[simp] theorem charge_x (n : Nat) (s : State) : (charge n s).x = s.x := rfl
@[simp] theorem charge_y (n : Nat) (s : State) : (charge n s).y = s.y := rfl
@[simp] theorem charge_c (n : Nat) (s : State) : (charge n s).c = s.c := rfl
@[simp] theorem charge_pc (n : Nat) (s : State) : (charge n s).pc = s.pc := rfl
@[simp] theorem charge_sp (n : Nat) (s : State) : (charge n s).sp = s.sp := rfl
@[simp] theorem charge_stk (n : Nat) (s : State) : (charge n s).stk = s.stk := rfl
@[simp] theorem charge_ie (n : Nat) (s : State) : (charge n s).ie = s.ie := rfl
@[simp] theorem charge_tb (n : Nat) (s : State) : (charge n s).tb = s.tb := rfl
@[simp] theorem charge_run (n : Nat) (s : State) : (charge n s).run = s.run := rfl
@[simp] theorem charge_ram (n : Nat) (s : State) : (charge n s).ram = s.ram := rfl
@[simp] theorem charge_prog (n : Nat) (s : State) : (charge n s).prog = s.prog := rfl
@[simp] theorem charge_par (n : Nat) (s : State) : (charge n s).par = s.par := rfl
@[simp] theorem charge_inputs (n : Nat) (s : State) : (charge n s).inputs = s.inputs := rfl
@[simp] theorem charge_events (n : Nat) (s : State) : (charge n s).events = s.events := rfl
@[simp] theorem charge_budget (n : Nat) (s : State) : (charge n s).budget = s.budget - n := rfl
@[simp] theorem charge_draws (n : Nat) (s : State) : (charge n s).draws = s.draws := rfl

/-! ## takeInput -/

@[simp] theorem takeInput_a (s : State) : (takeInput s).a = s.a := rfl
@[simp] theorem takeInput_b (s : State) : (takeInput s).b = s.b := rfl
@[simp] theorem takeInput_w (s : State) : (takeInput s).w = s.w := rfl
@[simp] theorem takeInput_x (s : State) : (takeInput s).x = s.x := rfl
@[simp] theorem takeInput_y (s : State) : (takeInput s).y = s.y := rfl
@[simp] theorem takeInput_c (s : State) : (takeInput s).c = s.c := rfl
@[simp] theorem takeInput_pc (s : State) : (takeInput s).pc = s.pc := rfl
@[simp] theorem takeInput_sp (s : State) : (takeInput s).sp = s.sp := rfl
@[simp] theorem takeInput_stk (s : State) : (takeInput s).stk = s.stk := rfl
@[simp] theorem takeInput_ie (s : State) : (takeInput s).ie = s.ie := rfl
@[simp] theorem takeInput_tb (s : State) : (takeInput s).tb = s.tb := rfl
@[simp] theorem takeInput_run (s : State) : (takeInput s).run = s.run := rfl
@[simp] theorem takeInput_ram (s : State) : (takeInput s).ram = s.ram := rfl
@[simp] theorem takeInput_prog (s : State) : (takeInput s).prog = s.prog := rfl
@[simp] theorem takeInput_par (s : State) : (takeInput s).par = s.par := rfl
@[simp] theorem takeInput_inputs (s : State) : (takeInput s).inputs = s.inputs.tail := rfl
@[simp] theorem takeInput_events (s : State) : (takeInput s).events = s.events := rfl
@[simp] theorem takeInput_budget (s : State) : (takeInput s).budget = s.budget := rfl
@[simp] theorem takeInput_draws (s : State) : (takeInput s).draws = s.draws := rfl

end Sys2Proof.Machine
end

