-- ==== Sys2Proof/Laws/Ops.lean ====
section
/-! SUPPORT. One lemma per shared operation that says everything it can answer; the proofs cite these instead of
unfolding the operation. -/

namespace Sys2Proof.Machine

/-! ## Sequencing -/

@[simp] theorem andThen_ok {α : Type} (v : α) (k : α → Result) : andThen (.ok v) k = k v := rfl

@[simp] theorem andThen_error {α : Type} (f : Fault) (k : α → Result) : andThen (.error f) k = .fault f := rfl

/-- A sequence answers a next state exactly where the operation has a value and the rest answers it. -/
theorem andThen_next {α : Type} {r : Except Fault α} {k : α → Result} {t : State} :
    andThen r k = .next t ↔ ∃ v, r = .ok v ∧ k v = .next t := by
  cases r <;> simp [andThen]

/-- A sequence is refused exactly where the operation has a value and the rest is refused. -/
theorem andThen_refused {α : Type} {r : Except Fault α} {k : α → Result} {q : Refusal} :
    andThen r k = .refused q ↔ ∃ v, r = .ok v ∧ k v = .refused q := by
  cases r <;> simp [andThen]

theorem map_ok_iff {α β : Type} {r : Except Fault α} {f : α → β} {b : β} :
    r.map f = .ok b ↔ ∃ a, r = .ok a ∧ f a = b := by
  cases r <;> simp [Except.map]

/-! ## Data memory -/

theorem inRam_below {p : Params} {e : DataAddr} (h : inRam p e = true) : e.toNat < 0x3C0 := by
  simp only [inRam, Bool.and_eq_true, decide_eq_true_eq] at h
  exact h.1

/-- The three kinds of data address exclude one another (R35-R37). -/
theorem inRam_false_of_window {p : Params} {e : DataAddr} (h : 0x3C0 ≤ e.toNat) : inRam p e = false := by
  cases hr : inRam p e
  · rfl
  · have := inRam_below hr; omega

theorem memRead_of_cellHolds {s : State} {e : DataAddr} {v : Nibble} (h : cellHolds s e v) :
    memRead s e = .ok (v, s) := by
  simp [memRead, h.1, h.2]

theorem memRead_undef {s : State} {e : DataAddr} (h : inRam s.par e = true) (hc : readCell s e = none) :
    memRead s e = .error (.undefCell e) := by
  simp [memRead, h, hc]

theorem memRead_window {s : State} {e : DataAddr} (h : 0x3C0 ≤ e.toNat) :
    memRead s e = .error (.stackWindow e) := by
  simp [memRead, inRam_false_of_window h, inStackWindow, h]

theorem memRead_unused {s : State} {e : DataAddr} (h : unusedAddr s e) :
    memRead s e = .ok (Config.freeNibble s.draws, { s with draws := s.draws + 1 }) := by
  simp [memRead, h.1, h.2]

/-- Everything `MemRead` can answer (R38). -/
theorem memRead_ok {s t : State} {e : DataAddr} {v : Nibble} (h : memRead s e = .ok (v, t)) :
    (cellHolds s e v ∧ t = s) ∨
      (unusedAddr s e ∧ v = Config.freeNibble s.draws ∧ t = { s with draws := s.draws + 1 }) := by
  unfold memRead at h
  split at h
  · split at h
    · simp only [Except.ok.injEq, Prod.mk.injEq] at h
      exact .inl ⟨⟨‹_›, h.1 ▸ ‹_›⟩, h.2.symm⟩
    · cases h
  · split at h
    · cases h
    · simp only [Except.ok.injEq, Prod.mk.injEq] at h
      refine .inr ⟨⟨by simpa using ‹¬ inRam s.par e = true›, by simpa using ‹¬ inStackWindow e = true›⟩,
        h.1.symm, h.2.symm⟩

/-- A read changes at most the count of draws. -/
theorem memRead_frame {s t : State} {e : DataAddr} {v : Nibble} (h : memRead s e = .ok (v, t)) :
    ∃ n, t = { s with draws := n } := by
  rcases memRead_ok h with ⟨_, rfl⟩ | ⟨_, _, rfl⟩
  · exact ⟨t.draws, rfl⟩
  · exact ⟨_, rfl⟩

theorem memWrite_of_inRam {s : State} {e : DataAddr} {v : Nibble} (h : inRam s.par e = true) :
    memWrite s e v = .ok { s with ram := s.ram.write e.toNat (v.setWidth 8) } := by
  simp [memWrite, h]

theorem memWrite_window {s : State} {e : DataAddr} {v : Nibble} (h : 0x3C0 ≤ e.toNat) :
    memWrite s e v = .error (.stackWindow e) := by
  simp [memWrite, inRam_false_of_window h, inStackWindow, h]

theorem memWrite_unused {s : State} {e : DataAddr} {v : Nibble} (h : unusedAddr s e) :
    memWrite s e v = .error (.unusedWrite e) := by
  simp [memWrite, h.1, h.2]

/-- Everything `MemWrite` can answer (R39). -/
theorem memWrite_ok {s t : State} {e : DataAddr} {v : Nibble} (h : memWrite s e v = .ok t) :
    inRam s.par e = true ∧ t = { s with ram := s.ram.write e.toNat (v.setWidth 8) } := by
  unfold memWrite at h
  split at h
  · exact ⟨‹_›, (Except.ok.inj h).symm⟩
  · split at h <;> cases h

/-- A cell reads back the value written, and every other cell is as before. -/
theorem storesCell_write (s : State) (e : DataAddr) (v : Nibble) :
    storesCell s { s with ram := s.ram.write e.toNat (v.setWidth 8) } e v := by
  refine ⟨?_, fun d hd => ?_⟩
  · simp only [readCell, Memory.read_write_same, Option.map_some, Option.some.injEq]
    ext i hi
    simp
  · have : d.toNat ≠ e.toNat := fun h => hd (BitVec.eq_of_toNat_eq h)
    simp [readCell, Memory.read_write_other _ _ _ _ this]

/-- A cell's value depends on the RAM alone. -/
theorem readCell_congr {s t : State} (h : t.ram = s.ram) (e : DataAddr) : readCell t e = readCell s e := by
  simp [readCell, h]

/-- A written cell keeps the data store's canonical form. -/
theorem wf_ram_write {m : Memory} (h : m.wf = true) (e : DataAddr) (v : Nibble) :
    (m.write e.toNat (v.setWidth 8)).wf = true := by
  refine Memory.wf_write h e.isLt ?_
  have := v.isLt
  rw [BitVec.toNat_setWidth]
  omega

/-! ## Registers -/

/-- `RegRead` of a data register answers for `A` and `B` alone (R74). -/
theorem readData_ok {r : DataReg} {s : State} {v : Nibble} (h : readData r s = .ok v) :
    (r = .a ∧ v = s.a) ∨ (r = .b ∧ v = s.b) := by
  cases r <;> simp_all [readData]

/-- The value of an index step, as the rules write it (R90, R91). -/
theorem stepIdx_inc (p : Params) (v : BitVec 10) :
    stepIdx p .inc v = BitVec.ofNat 10 ((v.toNat + 1) % 2 ^ p.idxW) := rfl

theorem stepIdx_dec (p : Params) (v : BitVec 10) :
    stepIdx p .dec v = BitVec.ofInt 10 ((v.toNat - 1 : Int) % 2 ^ p.idxW) := by
  have hp : 0 < 2 ^ p.idxW := Nat.two_pow_pos _
  have : ((v.toNat - 1 : Int) % 2 ^ p.idxW) = (((v.toNat + 2 ^ p.idxW - 1) % 2 ^ p.idxW : Nat) : Int) := by
    rw [Int.natCast_emod, Nat.cast_sub (by omega)]
    push_cast
    rw [show ((v.toNat : Int) + 2 ^ p.idxW - 1) = (v.toNat - 1 : Int) + 2 ^ p.idxW by ring, Int.add_emod_right]
  rw [this, BitVec.ofInt_natCast]
  rfl

/-- An index step stays within `IDX_W` bits (R17). -/
theorem stepIdx_lt (p : Params) (d : Dir) (v : BitVec 10) : (stepIdx p d v).toNat < 2 ^ p.idxW := by
  have hp : 0 < 2 ^ p.idxW := Nat.two_pow_pos _
  cases d <;> simp only [stepIdx, BitVec.toNat_ofNat]
  all_goals exact lt_of_le_of_lt (Nat.mod_le _ _) (Nat.mod_lt _ hp)

/-- A literal fits every index register (R94). -/
theorem literal_lt (p : Params) (n : Nibble) : (n.setWidth 10).toNat < 2 ^ p.idxW := by
  have h1 := n.isLt
  have h2 : 2 ^ 4 ≤ 2 ^ p.idxW := Nat.pow_le_pow_right (by norm_num) (by simp [Params.idxW])
  rw [BitVec.toNat_setWidth]
  omega

/-- Everything `LATCH_ARG` can answer (R121). -/
theorem latchArg_ok {k op : OpWord} {s : State} {v : Nat} (h : latchArg k op s = .ok v) :
    v = Config.latchArg k op (regView s) ∧
      (s.par.latchMayReadW = true → Config.latchReadsW k op (regView s) = false) := by
  unfold latchArg at h
  split at h
  · cases h
  · rename_i hn
    exact ⟨(Except.ok.inj h).symm, fun hw => by simpa [hw] using hn⟩

theorem latchArg_of_readable {k op : OpWord} {s : State} (h : s.par.latchMayReadW = false) :
    latchArg k op s = .ok (Config.latchArg k op (regView s)) := by
  simp [latchArg, h]

theorem tableTarget_of_readable {op : OpWord} {s : State} (h : s.par.tableMayReadW = false) :
    tableTarget op s = .ok (Config.tableTarget op (regView s) (progRead s.prog)) := by
  simp [tableTarget, h]

/-- Everything `TABLE_TARGET` can answer (R113). -/
theorem tableTarget_ok {op : OpWord} {s : State} {a : ProgAddr} (h : tableTarget op s = .ok a) :
    a = Config.tableTarget op (regView s) (progRead s.prog) ∧
      (s.par.tableMayReadW = true → Config.tableReadsW op (regView s) (progRead s.prog) = false) := by
  unfold tableTarget at h
  split at h
  · cases h
  · rename_i hn
    exact ⟨(Except.ok.inj h).symm, fun hw => by simpa [hw] using hn⟩

/-! ## The return stack -/

/-- Everything `Push` can answer (R78). -/
theorem push_ok {s t : State} {a : ProgAddr} (h : push s a = .ok t) :
    pushOk s ∧ pushed s t a ∧ t = { s with sp := t.sp, stk := t.stk } := by
  unfold push at h
  split at h
  · rename_i hs
    cases h
    refine ⟨.inl hs, ⟨by simp; omega, fun j => ?_⟩, rfl⟩
    simp only [Fin.getElem_fin, Vector.getElem_set]
    have : min s.sp.val 63 = s.sp.val := by omega
    simp [this, eq_comm]
  · rename_i hs
    have h64 : s.sp.val = 64 := by have := s.sp.isLt; omega
    split at h
    · cases h
      refine ⟨.inr ‹_›, ⟨by simp; omega, fun j => ?_⟩, rfl⟩
      simp only [Fin.getElem_fin, Vector.getElem_set]
      have : min s.sp.val 63 = 63 := by omega
      simp [this, eq_comm]
    · cases h

/-- A push answers where it may (R78). -/
theorem push_of_pushOk {s : State} (a : ProgAddr) (h : pushOk s) : ∃ t, push s a = .ok t := by
  unfold push
  split
  · exact ⟨_, rfl⟩
  · rcases h with h | h
    · contradiction
    · simp [h]

theorem push_overflow {s : State} (a : ProgAddr) (h : s.sp.val = 64) (hp : s.par.stackPolicy = .refuse) :
    push s a = .error .stackOverflow := by
  simp [push, h, hp]

theorem pop_entry {s : State} (j : Fin 64) (h : j.val + 1 = s.sp.val) :
    pop s = .ok (some s.stk[j], { s with sp := j.castSucc }) := by
  have h0 : 0 < s.sp.val := by omega
  have hj : s.sp.val - 1 = j.val := by omega
  simp only [pop, h0, dite_true, hj]
  rfl

theorem pop_empty {s : State} (h : s.sp = 0) (hp : s.par.stackPolicy = .saturate) : pop s = .ok (none, s) := by
  simp [pop, h, hp]

theorem pop_underflow {s : State} (h : s.sp = 0) (hp : s.par.stackPolicy = .refuse) :
    pop s = .error .stackUnderflow := by
  simp [pop, h, hp]

/-- A pop changes at most `SP` (R79). -/
theorem pop_frame {s t : State} {o : Option ProgAddr} (h : pop s = .ok (o, t)) : t = { s with sp := t.sp } := by
  unfold pop at h
  split at h
  · cases h; rfl
  · split at h
    · cases h; rfl
    · cases h

/-- A return changes at most `SP` and `PC` (R116). -/
theorem returnTo_frame {s t : State} (h : returnTo s = .ok t) : t = { s with sp := t.sp, pc := t.pc } := by
  obtain ⟨⟨o, u⟩, hu, rfl⟩ := map_ok_iff.1 h
  rw [pop_frame hu]
  cases o <;> rfl

end Sys2Proof.Machine
end

