-- ==== Sys2Proof/Laws/Exec.lean ====
section
/-! SUPPORT. What the shared shapes of the meanings answer: an operand read, a load, a store, an arithmetic result, a
rewritten cell, a skip. Each says everything the shape can do where it answers a next state. -/

namespace Sys2Proof.Machine

/-! ## Operand reads -/

/-- Reading a memory operand changes at most the count of draws (R38). -/
theorem readMem_frame {m : MemOp} {s t : State} {v : Nibble} (h : readMem m s = .ok (v, t)) :
    ∃ n, t = { s with draws := n } :=
  memRead_frame h

/-- Reading a source operand changes at most the count of draws (R38, R74). -/
theorem readSrc_frame {o : SrcOp} {s t : State} {v : Nibble} (h : readSrc o s = .ok (v, t)) :
    ∃ n, t = { s with draws := n } := by
  cases o
  · cases h; exact ⟨s.draws, rfl⟩
  · exact memRead_frame h

/-! ## Loads and stores -/

theorem loadFrom_ok {r : DataReg} {e : DataAddr} {s t : State} (h : loadFrom r e s = .ok t) :
    ∃ v u, memRead s e = .ok (v, u) ∧ t = writeData r v u := by
  obtain ⟨⟨v, u⟩, hu, rfl⟩ := map_ok_iff.1 h
  exact ⟨v, u, hu, rfl⟩

theorem storeTo_ok {r : DataReg} {e : DataAddr} {s t : State} (h : storeTo r e s = .ok t) :
    ∃ v, readData r s = .ok v ∧ inRam s.par e = true ∧
      t = { s with ram := s.ram.write e.toNat (v.setWidth 8) } := by
  unfold storeTo at h
  cases hr : readData r s with
  | error f => simp [hr, Except.bind] at h
  | ok v => simp only [hr, Except.bind] at h; exact ⟨v, rfl, memWrite_ok h⟩

/-! ## Arithmetic, logic, rewritten cells, skips -/

theorem arithmetic_next {f : Nibble → Nibble → BitVec 1 → Nibble × BitVec 1} {o : SrcOp} {s t : State}
    (h : arithmetic f o s = .next t) : ∃ v n, t = { setAC (f s.a v s.c) s with draws := n } := by
  obtain ⟨⟨v, u⟩, hu, ht⟩ := andThen_next.1 h
  obtain ⟨n, rfl⟩ := readSrc_frame hu
  cases ht
  exact ⟨v, n, rfl⟩

theorem logic_next {f : Nibble → Nibble → Nibble} {m : MemOp} {s t : State} (h : logic f m s = .next t) :
    ∃ v c n, t = { s with a := f s.a v, c := c, draws := n } := by
  obtain ⟨⟨v, u⟩, hu, ht⟩ := andThen_next.1 h
  obtain ⟨n, rfl⟩ := readMem_frame hu
  cases ht
  exact ⟨v, Config.freeBit n, n + 1, rfl⟩

/-- A cell that is read and written back is a RAM cell that held a value; its read is no draw. -/
theorem readMem_write {m : MemOp} {s t u : State} {v w : Nibble} (hr : readMem m s = .ok (v, u))
    (hw : memWrite u (ea m s) w = .ok t) :
    cellHolds s (ea m s) v ∧ t = { s with ram := s.ram.write (ea m s).toNat (w.setWidth 8) } := by
  obtain ⟨hi, rfl⟩ := memWrite_ok hw
  rcases memRead_ok hr with ⟨hc, rfl⟩ | ⟨hu, -, rfl⟩
  · exact ⟨hc, rfl⟩
  · exact absurd hi (by simp [hu.1])

theorem modifyCell_next {f : Nibble → Nibble × BitVec 1} {m : MemOp} {s t : State}
    (h : modifyCell f m s = .next t) : ∃ v, cellHolds s (ea m s) v ∧
      t = { s with ram := s.ram.write (ea m s).toNat ((f v).1.setWidth 8), c := (f v).2 } := by
  obtain ⟨⟨v, u⟩, hu, ht⟩ := andThen_next.1 h
  obtain ⟨w, hw, hn⟩ := andThen_next.1 ht
  obtain ⟨hc, rfl⟩ := readMem_write hu hw
  cases hn
  exact ⟨v, hc, rfl⟩

theorem rewriteCell_next {f : Nibble → Nibble} {m : MemOp} {s t : State} (h : rewriteCell f m s = .next t) :
    ∃ v, cellHolds s (ea m s) v ∧ t = { s with ram := s.ram.write (ea m s).toNat ((f v).setWidth 8) } := by
  obtain ⟨⟨v, u⟩, hu, ht⟩ := andThen_next.1 h
  obtain ⟨w, hw, hn⟩ := andThen_next.1 ht
  obtain ⟨hc, rfl⟩ := readMem_write hu hw
  cases hn
  exact ⟨v, hc, rfl⟩

/-- A compare or bit test, as one record: the flag a draw, `PC` where the skip leaves it (R77, R105-R107, R110). -/
theorem skipIf_drawCarry (s : State) (n : Nat) (b : Bool) :
    skipIf b (drawCarry { s with draws := n }) =
      { s with c := Config.freeBit n, draws := n + 1, pc := if b then afterSkip s else s.pc } := by
  have hskip : ∀ w : Bool, s.pc + BitVec.ofNat 14 (if w then 2 else 1) = s.pc + (if w then 2 else 1) := by
    intro w; cases w <;> rfl
  cases b
  · rfl
  · show { s with c := _, draws := _, pc := _ } = _
    rw [if_pos rfl, afterSkip, ← hskip]
    rfl

theorem compareSkip_next {rel : Nat → Nat → Bool} {r : CmpReg} {o : SrcOp} {s t : State}
    (h : compareSkip rel r o s = .next t) : ∃ c n pc, t = { s with c := c, draws := n, pc := pc } := by
  obtain ⟨⟨v, u⟩, hu, ht⟩ := andThen_next.1 h
  obtain ⟨n, rfl⟩ := readSrc_frame hu
  cases ht
  exact ⟨_, _, _, skipIf_drawCarry s n _⟩

theorem execBtst_next {n : Fin 4} {m : MemOp} {s t : State} (h : execBtst n m s = .next t) :
    ∃ c k pc, t = { s with c := c, draws := k, pc := pc } := by
  obtain ⟨⟨v, u⟩, hu, ht⟩ := andThen_next.1 h
  obtain ⟨n, rfl⟩ := readMem_frame hu
  cases ht
  exact ⟨_, _, _, skipIf_drawCarry s n _⟩

/-! ## Acknowledge and the returns -/

/-- Everything an acknowledge can answer (R130). -/
theorem interruptAck_ok {k : Bool} {s t : State} (h : interruptAck k s = .ok t) :
    pushOk s ∧ pushed s t s.pc ∧ t = { s with
      pc := vector s.par k, ie := 0, sp := t.sp, stk := t.stk, events := s.events ++ [.intAck k] } := by
  obtain ⟨u, hu, rfl⟩ := map_ok_iff.1 h
  obtain ⟨h1, h2, h3⟩ := push_ok hu
  refine ⟨h1, h2, ?_⟩
  rw [h3]
  rfl

theorem interruptAck_of_pushOk {s : State} (k : Bool) (h : pushOk s) : ∃ t, interruptAck k s = .ok t := by
  obtain ⟨t, ht⟩ := push_of_pushOk s.pc h
  exact ⟨_, map_ok_iff.2 ⟨t, ht, rfl⟩⟩

/-- Everything `CALL` can answer (R115). -/
theorem execCall_next {op w2 : OpWord} {s t : State} (h : execCall op w2 s = .next t) :
    pushed s t s.pc ∧ t = { s with pc := Config.callTarget op w2, sp := t.sp, stk := t.stk } := by
  obtain ⟨u, hu, ht⟩ := andThen_next.1 h
  cases ht
  obtain ⟨-, h2, h3⟩ := push_ok hu
  refine ⟨h2, ?_⟩
  rw [h3]

end Sys2Proof.Machine
end

