-- ==== Sys2Proof/Laws/PerInstr.lean ====
section
/-! SUPPORT. The statements made per instruction: the length rule, one lemma per constructor. -/

namespace Sys2Proof

/-- The instruction's second word is read by it: a `(d)` operand or `BRL` (R65). -/
def Instr.needsSecond : Instr → Bool
  | .ldDir _ _ | .stDir _ _ | .brl _ _ => true
  | .add (.mem (.direct _)) | .adc (.mem (.direct _)) | .sbc (.mem (.direct _)) => true
  | .incM (.direct _) | .decM (.direct _) => true
  | .andA (.direct _) | .orA (.direct _) | .xorA (.direct _) => true
  | .skeq _ (.mem (.direct _)) | .skne _ (.mem (.direct _)) | .sklt _ (.mem (.direct _)) => true
  | .bset _ (.direct _) | .bclr _ (.direct _) | .btst _ (.direct _) => true
  | _ => false

/-- The instruction may be of either length (R65, R66). -/
def Instr.eitherLength : Instr → Bool
  | .call _ _ | .illegal _ => true
  | _ => false

/-- The length rule about an instruction (R65): wherever an opcode selects it, that opcode is two words exactly where it
reads a second word, but for `CALL` and `ILLEGAL`, which may be either. -/
def Laws.LengthRule.Statement (i : Instr) : Prop :=
  ∀ (p : Params) (op w2 : OpWord), decode p op w2 = .ok i →
    i.eitherLength = true ∨ tw p op = i.needsSecond

/-- What a handler stands for reads a second word exactly where the handler's length is two words (R65). -/
theorem Handler.lengthOk_toInstr (h : Handler) (op w2 : OpWord) (b : Bool) (hb : h.lengthOk b = true) :
    (h.toInstr op w2).eitherLength = true ∨ b = (h.toInstr op w2).needsSecond := by
  cases h <;>
    first
      | (rename_i o; rcases o with _ | (_ | _) <;> cases b <;>
          simp_all [Handler.lengthOk, Handler.length, SrcMode.needsSecond, MemMode.needsSecond, Length.ofNeeds,
            Handler.toInstr, SrcMode.operand, MemMode.operand, Instr.needsSecond, Instr.eitherLength])
      | (cases b <;>
          simp_all [Handler.lengthOk, Handler.length, Handler.toInstr, Instr.needsSecond, Instr.eitherLength])

/-- The length rule holds of every instruction. -/
theorem lengthRule_all (i : Instr) : Laws.LengthRule.Statement i := by
  intro p op w2 h
  rcases decode_ok h with ⟨hf, -, rfl⟩ | ⟨hf, -, rfl⟩ | ⟨hd, -, -, hl, rfl⟩
  · exact .inr (by simp [tw_fixed hf, Instr.needsSecond])
  · exact .inr (by simp [tw_fixed hf, Instr.needsSecond])
  · exact Handler.lengthOk_toInstr _ _ _ _ hl


theorem Laws.LengthRule.mov (p : MovPair) : Laws.LengthRule.Statement (.mov p) := lengthRule_all _
theorem Laws.LengthRule.ldIdx (r : DataReg) (i : IdxReg) : Laws.LengthRule.Statement (.ldIdx r i) := lengthRule_all _
theorem Laws.LengthRule.ldDir (r : DataReg) (d : DataAddr) : Laws.LengthRule.Statement (.ldDir r d) := lengthRule_all _
theorem Laws.LengthRule.stIdx (r : DataReg) (i : IdxReg) : Laws.LengthRule.Statement (.stIdx r i) := lengthRule_all _
theorem Laws.LengthRule.stDir (r : DataReg) (d : DataAddr) : Laws.LengthRule.Statement (.stDir r d) := lengthRule_all _
theorem Laws.LengthRule.ldAuto (r : DataReg) (i : IdxReg) (dir : Dir) : Laws.LengthRule.Statement (.ldAuto r i dir) := lengthRule_all _
theorem Laws.LengthRule.stAuto (r : DataReg) (i : IdxReg) (dir : Dir) : Laws.LengthRule.Statement (.stAuto r i dir) := lengthRule_all _
theorem Laws.LengthRule.ldiA (n : Nibble) : Laws.LengthRule.Statement (.ldiA n) := lengthRule_all _
theorem Laws.LengthRule.ldiR (r : LdiReg) (n : Nibble) : Laws.LengthRule.Statement (.ldiR r n) := lengthRule_all _
theorem Laws.LengthRule.ldiX (i : IdxReg) (n : Nibble) : Laws.LengthRule.Statement (.ldiX i n) := lengthRule_all _
theorem Laws.LengthRule.add (o : SrcOp) : Laws.LengthRule.Statement (.add o) := lengthRule_all _
theorem Laws.LengthRule.adc (o : SrcOp) : Laws.LengthRule.Statement (.adc o) := lengthRule_all _
theorem Laws.LengthRule.sbc (o : SrcOp) : Laws.LengthRule.Statement (.sbc o) := lengthRule_all _
theorem Laws.LengthRule.incM (m : MemOp) : Laws.LengthRule.Statement (.incM m) := lengthRule_all _
theorem Laws.LengthRule.decM (m : MemOp) : Laws.LengthRule.Statement (.decM m) := lengthRule_all _
theorem Laws.LengthRule.daa : Laws.LengthRule.Statement .daa := lengthRule_all _
theorem Laws.LengthRule.das : Laws.LengthRule.Statement .das := lengthRule_all _
theorem Laws.LengthRule.andA (m : MemOp) : Laws.LengthRule.Statement (.andA m) := lengthRule_all _
theorem Laws.LengthRule.orA (m : MemOp) : Laws.LengthRule.Statement (.orA m) := lengthRule_all _
theorem Laws.LengthRule.xorA (m : MemOp) : Laws.LengthRule.Statement (.xorA m) := lengthRule_all _
theorem Laws.LengthRule.skeq (r : CmpReg) (o : SrcOp) : Laws.LengthRule.Statement (.skeq r o) := lengthRule_all _
theorem Laws.LengthRule.skne (r : CmpReg) (o : SrcOp) : Laws.LengthRule.Statement (.skne r o) := lengthRule_all _
theorem Laws.LengthRule.sklt (r : CmpReg) (o : SrcOp) : Laws.LengthRule.Statement (.sklt r o) := lengthRule_all _
theorem Laws.LengthRule.bset (n : Fin 4) (m : MemOp) : Laws.LengthRule.Statement (.bset n m) := lengthRule_all _
theorem Laws.LengthRule.bclr (n : Fin 4) (m : MemOp) : Laws.LengthRule.Statement (.bclr n m) := lengthRule_all _
theorem Laws.LengthRule.btst (n : Fin 4) (m : MemOp) : Laws.LengthRule.Statement (.btst n m) := lengthRule_all _
theorem Laws.LengthRule.br (op : OpWord) : Laws.LengthRule.Statement (.br op) := lengthRule_all _
theorem Laws.LengthRule.brl (op w2 : OpWord) : Laws.LengthRule.Statement (.brl op w2) := lengthRule_all _
theorem Laws.LengthRule.brt (op : OpWord) : Laws.LengthRule.Statement (.brt op) := lengthRule_all _
theorem Laws.LengthRule.bnz : Laws.LengthRule.Statement .bnz := lengthRule_all _
theorem Laws.LengthRule.call (op w2 : OpWord) : Laws.LengthRule.Statement (.call op w2) := lengthRule_all _
theorem Laws.LengthRule.ret : Laws.LengthRule.Statement .ret := lengthRule_all _
theorem Laws.LengthRule.reti : Laws.LengthRule.Statement .reti := lengthRule_all _
theorem Laws.LengthRule.nop : Laws.LengthRule.Statement .nop := lengthRule_all _
theorem Laws.LengthRule.stby : Laws.LengthRule.Statement .stby := lengthRule_all _
theorem Laws.LengthRule.stop : Laws.LengthRule.Statement .stop := lengthRule_all _
theorem Laws.LengthRule.latch (k op : OpWord) : Laws.LengthRule.Statement (.latch k op) := lengthRule_all _
theorem Laws.LengthRule.illegal (op : OpWord) : Laws.LengthRule.Statement (.illegal op) := lengthRule_all _

end Sys2Proof
end

