-- ==== Sys2Proof/Laws/Step.lean ====
section
/-! SUPPORT. What a step can do, said once: it idles or wakes, acknowledges an interrupt, or runs the instruction the
words at `PC` decode to (R75). -/

namespace Sys2Proof.Machine

theorem interruptDue_takeInput (s : State) :
    interruptDue (hostInput s) (takeInput s) = interruptDue (hostInput s) s := rfl

/-- The fetches of a step, from its `Trace` on (R55, R72, R73). -/
theorem fetchInstr_eq (s : State) :
    fetchInstr (emit (takeInput s) (.trace s.pc)) = (progRead s.prog s.pc, nextSecond s, fetched s) := by
  unfold fetchInstr nextSecond fetched wordCount
  cases h : tw s.par (progRead s.prog s.pc)
  · simp only [fetch, emit_prog, emit_pc, emit_par, takeInput_prog, takeInput_pc, takeInput_par, h]
    rfl
  · simp only [fetch, emit_prog, emit_pc, emit_par, takeInput_prog, takeInput_pc, takeInput_par, h, if_true,
      BitVec.add_assoc]
    rfl

/-- A step while Halted (R75). -/
theorem step_halted {s : State} (h : s.run = .halted) : step s = .next (haltedStep (hostInput s) (takeInput s)) := by
  unfold step loopStep
  rw [h]

/-- A step that acknowledges an interrupt (R75). -/
theorem step_ack {s : State} (h : s.run = .fetching) (hd : interruptDue (hostInput s) s = true) :
    step s = ackStep (hostInput s) (takeInput s) := by
  unfold step loopStep
  rw [h]
  simp only [interruptDue_takeInput, hd, if_true]

/-- A step that fetches (R72, R75). -/
theorem step_fetches {s : State} (h : fetchesNext s) : step s =
    match nextInstr s with
    | .ok i => chargeNext (stepCost s) (exec i (fetched s))
    | .error _ => .refused (.lengthRule (progRead s.prog s.pc)) := by
  have h2 : interruptDue (hostInput s) (takeInput s) = false := h.2
  unfold step loopStep
  rw [h.1]
  simp only [h2, Bool.false_eq_true, if_false]
  unfold fetchExecute
  rw [show (takeInput s).pc = s.pc from rfl, fetchInstr_eq]
  rfl

theorem chargeNext_next {n : Nat} {r : Result} {t : State} (h : chargeNext n r = .next t) :
    ∃ u, r = .next u ∧ t = charge n u := by
  cases r <;> simp_all [chargeNext]

/-- Drawing the line changes at most the count of draws (R75). -/
theorem chooseLine_frame (inp : HostInput) (s : State) : ∃ n, (chooseLine inp s).2 = { s with draws := n } := by
  unfold chooseLine
  split
  · exact ⟨_, rfl⟩
  · exact ⟨s.draws, rfl⟩

theorem ackStep_next {inp : HostInput} {s t : State} (h : ackStep inp s = .next t) : ∃ k n u,
    pushed s u s.pc ∧ t = { s with
      pc := vector s.par k, ie := 0, sp := u.sp, stk := u.stk, events := s.events ++ [.intAck k]
      budget := s.budget - Config.intCost, draws := n } := by
  obtain ⟨u, hu, ht⟩ := andThen_next.1 h
  cases ht
  obtain ⟨-, h2, h3⟩ := interruptAck_ok hu
  obtain ⟨n, hn⟩ := chooseLine_frame inp s
  rw [hn] at h2 h3
  refine ⟨(chooseLine inp s).1, n, u, h2, ?_⟩
  rw [h3]
  rfl

/-- Everything a step can do where it answers a next state (R75). -/
theorem step_cases {s t : State} (h : step s = .next t) :
    (s.run = .halted ∧ t = haltedStep (hostInput s) (takeInput s)) ∨
    (s.run = .fetching ∧ interruptDue (hostInput s) s = true ∧ ackStep (hostInput s) (takeInput s) = .next t) ∨
    (fetchesNext s ∧ ∃ i u, nextInstr s = .ok i ∧ exec i (fetched s) = .next u ∧
      t = charge (stepCost s) u) := by
  cases hr : s.run with
  | halted => exact .inl ⟨rfl, (Host.Outcome.next.inj ((step_halted hr).symm.trans h)).symm⟩
  | fetching =>
    cases hd : interruptDue (hostInput s) s with
    | true => exact .inr (.inl ⟨rfl, rfl, (step_ack hr hd).symm.trans h⟩)
    | false =>
      have hf : fetchesNext s := ⟨hr, hd⟩
      rw [step_fetches hf] at h
      cases hi : nextInstr s with
      | error e => rw [hi] at h; cases h
      | ok i =>
        rw [hi] at h
        obtain ⟨u, hu, rfl⟩ := chargeNext_next h
        exact .inr (.inr ⟨hf, i, u, rfl, hu, rfl⟩)

end Sys2Proof.Machine
end

