-- ==== Sys2Proof/Tests/Slice0.lean ====
section
/-! SUPPORT. Tests: one step or one decoding each, the expected results taken from spec/ (95_test_vectors.md unless a
comment says otherwise), then one witness for the hypotheses of each statement. The sample instance below is a test
instance: its opcodes are invented within the formats of 30_encoding.md R56, but for the two fixed encodings. -/

namespace Sys2Proof.Tests

open Sys2Proof Sys2Proof.Machine

/-! ## The sample instance -/

/-- Rows with a literal in `op[3:0]` (R59), and the short branch class (R61 tier 1). -/
def sampleTier1 : List MaskRow :=
  [⟨0x3C0, 0x0C0, .br⟩, ⟨0x3F0, 0x010, .ldiR .b⟩, ⟨0x3F0, 0x020, .ldiX .x⟩, ⟨0x3F0, 0x030, .add .imm⟩,
    ⟨0x3F0, 0x040, .adc .imm⟩, ⟨0x3F0, 0x050, .sbc .imm⟩]

/-- Rows of the second tier; the first overlaps tier 1's `br` class, which wins (R61). -/
def sampleTier2 : List MaskRow :=
  [⟨0x3FF, 0x0C1, .nop⟩, ⟨0x3F0, 0x060, .skeq .a .imm⟩, ⟨0x3F0, 0x070, .skne .b .imm⟩, ⟨0x3F0, 0x080, .sklt .x .imm⟩]

/-- One-word exact rows. -/
def sampleOneWord : List ExactRow :=
  [⟨0x000, .mov .ab⟩, ⟨0x001, .ldIdx .a .x⟩, ⟨0x002, .stIdx .b .y⟩, ⟨0x003, .ldAuto .a .y .inc⟩,
    ⟨0x004, .stAuto .a .x .dec⟩, ⟨0x005, .incM (.idx .x)⟩, ⟨0x006, .decM (.idx .y)⟩, ⟨0x007, .daa⟩, ⟨0x008, .das⟩,
    ⟨0x009, .andA (.idx .x)⟩, ⟨0x00A, .orA (.idx .y)⟩, ⟨0x00B, .xorA (.idx .x)⟩, ⟨0x00C, .bset 2 (.idx .x)⟩,
    ⟨0x00D, .bclr 0 (.idx .y)⟩, ⟨0x00E, .btst 3 (.idx .x)⟩, ⟨0x00F, .brt⟩, ⟨0x090, .call⟩, ⟨0x091, .ret⟩,
    ⟨0x092, .reti⟩, ⟨0x093, .nop⟩, ⟨0x094, .stby⟩, ⟨0x095, .stop⟩, ⟨0x096, .latch 5⟩]

/-- Two-word exact rows, in the sample's first range, and one row that breaks R65 (a `NOP` of two words). -/
def sampleTwoWord : List ExactRow :=
  [⟨0x300, .ldDir .a⟩, ⟨0x301, .stDir .b⟩, ⟨0x302, .add (.mem .direct)⟩, ⟨0x303, .incM .direct⟩, ⟨0x304, .brl⟩,
    ⟨0x305, .call⟩, ⟨0x306, .btst 1 .direct⟩, ⟨0x308, .nop⟩]

/-- P0's stated values with the sample `DECODE`, ranges, vectors and short-branch form. -/
def samplePar : Params :=
  { Params.p0 with
    variant := { romWords := .w2048, ramCells := 256, divider := none }
    tw1 := ⟨0x300, 0x30F⟩
    tw2 := ⟨0x3F0, 0x3F7⟩
    decodeMap := ⟨sampleTier1, sampleTier2, sampleOneWord ++ sampleTwoWord⟩
    shortBranch := { bits := 6, lo := 0, base := .next }
    vec0 := 0x002
    vec1 := 0x004
    latchMayReadW := false
    tableMayReadW := false }

/-- The sample machine, with three RAM cells: `M[0x001] = 0b0100`, `M[0x003] = 0b1010`, `M[0x00F] = 2`. -/
def base : State :=
  { State.resetWith samplePar [] [(1, 4), (3, 10), (15, 2)] with ie := 0 }

/-- A part of the next state; none where there is none. -/
def nextOf {α : Type} (f : State → α) (r : Result) : Option α :=
  match r with
  | .next t => some (f t)
  | .fault _ => none
  | .refused _ => none

/-- The fault; none where there is none. -/
def faultOf (r : Result) : Option Fault :=
  match r with
  | .next _ => none
  | .fault q => some q
  | .refused _ => none

/-- `A` and `C`. -/
def ac (t : State) : Nibble × BitVec 1 :=
  (t.a, t.c)

/-- The decoder's instruction, at the head of two words. -/
def dec (op w2 : OpWord) : Option Instr :=
  match decodeWords samplePar [op, w2] with
  | .ok r => some r.1
  | .error _ => none

/-! ## Decoding: the fixed encodings (R62, R63), then every constructor under the sample `DECODE` (R56-R59) -/

theorem test_decode_fixed : decodeTableWord 16 0x230 = some (.ldiA 0) ∧ decodeTableWord 16 0x23A = some (.ldiA 10) ∧
    decodeTableWord 10 0x244 = some .bnz := by decide

theorem test_decode_load_move : dec 0x000 0 = some (.mov .ab) ∧ dec 0x001 0 = some (.ldIdx .a .x) ∧
    dec 0x300 0x1A5 = some (.ldDir .a 0x1A5) ∧ dec 0x002 0 = some (.stIdx .b .y) ∧
    dec 0x301 0x3FF = some (.stDir .b 0x3FF) ∧ dec 0x003 0 = some (.ldAuto .a .y .inc) ∧
    dec 0x004 0 = some (.stAuto .a .x .dec) := by decide

theorem test_decode_immediate : dec 0x235 0 = some (.ldiA 5) ∧ dec 0x01A 0 = some (.ldiR .b 10) ∧
    dec 0x023 0 = some (.ldiX .x 3) := by decide

theorem test_decode_arith : dec 0x038 0 = some (.add (.imm 8)) ∧ dec 0x302 0x003 = some (.add (.mem (.direct 3))) ∧
    dec 0x041 0 = some (.adc (.imm 1)) ∧ dec 0x05F 0 = some (.sbc (.imm 15)) ∧ dec 0x005 0 = some (.incM (.idx .x)) ∧
    dec 0x303 0x200 = some (.incM (.direct 0x200)) ∧ dec 0x006 0 = some (.decM (.idx .y)) ∧ dec 0x007 0 = some .daa ∧
    dec 0x008 0 = some .das := by decide

theorem test_decode_logic : dec 0x009 0 = some (.andA (.idx .x)) ∧ dec 0x00A 0 = some (.orA (.idx .y)) ∧
    dec 0x00B 0 = some (.xorA (.idx .x)) := by decide

theorem test_decode_skip_and_bits : dec 0x064 0 = some (.skeq .a (.imm 4)) ∧ dec 0x070 0 = some (.skne .b (.imm 0)) ∧
    dec 0x08F 0 = some (.sklt .x (.imm 15)) ∧ dec 0x00C 0 = some (.bset 2 (.idx .x)) ∧
    dec 0x00D 0 = some (.bclr 0 (.idx .y)) ∧ dec 0x00E 0 = some (.btst 3 (.idx .x)) ∧
    dec 0x306 0x001 = some (.btst 1 (.direct 1)) := by decide

theorem test_decode_transfer : dec 0x0D2 0 = some (.br 0x0D2) ∧ dec 0x304 0x155 = some (.brl 0x304 0x155) ∧
    dec 0x00F 0 = some (.brt 0x00F) ∧ dec 0x244 0x3FF = some .bnz ∧ dec 0x090 0x123 = some (.call 0x090 0) ∧
    dec 0x305 0x123 = some (.call 0x305 0x123) ∧ dec 0x091 0 = some .ret ∧ dec 0x092 0 = some .reti := by decide

theorem test_decode_mode : dec 0x093 0 = some .nop ∧ dec 0x094 0 = some .stby ∧ dec 0x095 0 = some .stop ∧
    dec 0x096 0 = some (.latch 5 0x096) ∧ dec 0x2FF 0 = some (.illegal 0x2FF) ∧
    dec 0x3F0 0x111 = some (.illegal 0x3F0) := by decide

/-- R61: tier 1 wins over tier 2. -/
theorem test_decode_precedence : dec 0x0C1 0 = some (.br 0x0C1) := by decide

/-- R65: a two-word `NOP` is refused; words that end early are refused. -/
theorem test_decode_rejects : decode samplePar 0x308 0 = .error (.lengthRule 0x308) ∧
    decodeWords samplePar [0x300] = .error .truncated ∧ decodeWords samplePar [] = .error .truncated := by
  refine ⟨rfl, rfl, rfl⟩

/-- The encoder: the fixed encodings, the words of the sample `DECODE`, and both words of a long branch. -/
theorem test_encode : encode samplePar (.ldiA 5) = some [0x235] ∧ encode samplePar .bnz = some [0x244] ∧
    encode samplePar (.stIdx .b .y) = some [0x002] ∧
    encode { samplePar with tw1 := ⟨1, 1⟩, decodeMap := ⟨[], [], [⟨1, .brl⟩]⟩ } (.brl 1 0x155) = some [1, 0x155] := by
  decide +kernel

/-! ## Well-formedness: each check refuses an ill-formed term -/

theorem test_wf_instr : (Instr.br 0x0C0).wf samplePar = true ∧ (Instr.br 0x300).wf samplePar = false ∧
    (Instr.br 0x230).wf samplePar = false ∧ (Instr.brl 0x304 0).wf samplePar = true ∧
    (Instr.brl 0x0C0 0).wf samplePar = false ∧ (Instr.brt 0x304).wf samplePar = false ∧
    (Instr.call 0x090 1).wf samplePar = false ∧ (Instr.call 0x305 1).wf samplePar = true ∧
    (Instr.latch 5 0x304).wf samplePar = false ∧ (Instr.latch 5 0x244).wf samplePar = false ∧
    (Instr.illegal 0x23F).wf samplePar = false := by decide

/-- The sample `DECODE` without its row that breaks R65. -/
def goodPar : Params :=
  { samplePar with decodeMap := ⟨sampleTier1, sampleTier2, sampleOneWord⟩ }

theorem test_wf_ranges : goodPar.rangesOk = true ∧ { goodPar with tw1 := ⟨0x200, 0x230⟩ }.rangesOk = false := by decide

theorem test_wf_fixed : goodPar.fixedOk = true ∧
    { goodPar with decodeMap := ⟨[⟨0x200, 0x200, .br⟩], [], []⟩ }.fixedOk = false ∧
    { goodPar with decodeMap := ⟨[], [], [⟨0x244, .nop⟩]⟩ }.fixedOk = false := by decide

theorem test_wf_tier3 : goodPar.tier3LengthOk = true ∧ samplePar.tier3LengthOk = false := by decide

theorem test_wf_short_branch : goodPar.shortBranchOk = true ∧
    { goodPar with shortBranch := { bits := 8, lo := 3, base := .this } }.shortBranchOk = false := by decide

theorem test_wf_ram : { goodPar with ramRegion := [⟨0x3B0, 32⟩] }.ramOk = false ∧
    { goodPar with ramRegion := [] }.ramOk = false := by
  constructor
  · rfl
  · simp [Params.ramOk, goodPar, samplePar]

/-! ## Steps: fetch, masking, the loop -/

/-- S1: the container's top 6 bits are dropped. -/
theorem test_fetch_masks : progRead [(0, 0x44), (1, 0xFE)] 0 = 0x244 := by decide

/-- S1: the last address wraps to 0. -/
theorem test_fetch_wraps : (fetch { base with pc := 0x3FFF }).2.pc = 0 := by decide

/-- V-FE1, with the input line list empty. -/
theorem test_step_ldi : nextOf (fun t => (t.a, t.pc, t.events))
    (step { base with pc := 0x0010, prog := placeWord [] 0x10 0x235 }) = some (5, 0x11, [.trace 0x10]) := by decide

/-- V-FE2: the second word of an instruction at 0x3FFF comes from 0x0000. -/
theorem test_step_second_word_wraps : nextOf (fun t => (t.a, t.pc))
    (step { base with pc := 0x3FFF, prog := placeWord (placeWord [] 0x3FFF 0x300) 0 0x003 }) =
      some (10, 1) := by decide

/-- V-FE3, V-IN4: while Halted an interrupt line has no effect. -/
theorem test_step_halted : nextOf (fun t => (t.run, t.pc, t.events, t.sp))
    (step { base with run := .halted, ie := 1, inputs := [⟨true, false, false⟩] }) =
      some (.halted, 0, [], 0) := by decide

/-- V-FE4: waking runs no instruction. -/
theorem test_step_wake : nextOf (fun t => (t.run, t.pc, t.events))
    (step { base with run := .halted, pc := 0x21, inputs := [⟨false, false, true⟩] }) =
      some (.fetching, 0x21, [.wake]) := by decide

/-- V-IN1: acknowledge on line 0; no `Trace`. -/
theorem test_step_ack : nextOf (fun t => (t.pc, t.ie, t.sp, t.stk[0], t.events))
    (step { base with pc := 5, ie := 1, inputs := [⟨true, false, false⟩] }) =
      some (2, 0, 1, 5, [.intAck false]) := by decide

/-- V-IN2: masked, the instruction runs. -/
theorem test_step_masked : nextOf (fun t => (t.a, t.pc))
    (step { base with prog := placeWord [] 0 0x231, inputs := [⟨true, false, false⟩] }) = some (1, 1) := by decide

/-- The host's question: the very next step runs the placed instruction from reset (R62, R63, S8). -/
theorem test_step_placed : nextOf (fun t => (t.a, t.pc)) (step (State.reset.withFetchWord 16 0x23F)) = some (15, 1) ∧
    nextOf (fun t => (t.a, t.pc)) (step (State.reset.withFetchWord 16 0x244)) = some (0, 1) := by decide

/-! ## Instructions -/

/-- V-LM1, V-LM2, V-LM3. -/
theorem test_mov : nextOf (fun t => (t.b, t.a)) (exec (.mov .ba) { base with a := 7 }) = some (7, 7) ∧
    nextOf (fun t => t.w) (exec (.mov .wa) { base with a := 7 }) = some 7 ∧
    faultOf (exec (.mov .aw) { base with w := 7 }) = some .wRead := by decide

/-- V-LM5, V-LM6. -/
theorem test_ld_idx : nextOf (fun t => (t.a, t.x)) (exec (.ldIdx .a .x) { base with x := 3 }) = some (10, 3) ∧
    faultOf (exec (.ldIdx .a .x) { base with x := 4 }) = some (.undefCell 4) := by decide

/-- V-LM8: the stack window, at its first address; V-LM9: an unused address completes. -/
theorem test_ld_dir : faultOf (exec (.ldDir .a 0x3C0) base) = some (.stackWindow 0x3C0) ∧
    completes (exec (.ldDir .a 0x200) base) = true := by decide

/-- V-LM12, V-LM13. -/
theorem test_st_idx : nextOf (fun t => readCell t 3) (exec (.stIdx .a .x) { base with x := 3, a := 9 }) =
      some (some 9) ∧ faultOf (exec (.stIdx .w .x) { base with w := 2 }) = some .wRead := by decide

/-- V-LM10, V-LM11. -/
theorem test_st_dir : faultOf (exec (.stDir .b 0x200) { base with b := 4 }) = some (.unusedWrite 0x200) ∧
    faultOf (exec (.stDir .b 0x3FF) { base with b := 4 }) = some (.stackWindow 0x3FF) := by decide

/-- V-LM14: the index wraps modulo `2^IDX_W`, `C` unchanged. -/
theorem test_ld_auto : nextOf (fun t => (t.a, t.y, t.c)) (exec (.ldAuto .a .y .inc) { base with y := 15, c := 1 }) =
    some (2, 0, 1) := by decide

/-- V-LM15. -/
theorem test_st_auto : nextOf (fun t => (readCell t 0, t.x)) (exec (.stAuto .a .x .dec) { base with a := 5 }) =
    some (some 5, 15) := by decide

/-- V-IM3, V-IM4, V-IM5. -/
theorem test_ldi : nextOf (fun t => t.a) (exec (.ldiA 15) base) = some 15 ∧
    nextOf (fun t => t.b) (exec (.ldiR .b 10) base) = some 10 ∧
    nextOf (fun t => t.x) (exec (.ldiX .x 3) { base with x := 0x3F }) = some 3 := by decide

/-- V-AR1: 8 + 8, 15 + 15. -/
theorem test_add : nextOf ac (exec (.add (.imm 8)) { base with a := 8 }) = some (0, 1) ∧
    nextOf ac (exec (.add (.imm 15)) { base with a := 15, c := 1 }) = some (14, 1) := by decide

/-- V-AR2. -/
theorem test_adc : nextOf ac (exec (.adc (.imm 15)) { base with a := 15, c := 1 }) = some (15, 1) ∧
    nextOf ac (exec (.adc (.imm 7)) { base with a := 7, c := 1 }) = some (15, 0) := by decide

/-- V-AR3, both settings: 0 - 15 with a borrow in. -/
theorem test_sbc : nextOf ac (exec (.sbc (.imm 15)) { base with a := 0, c := 1 }) = some (0, 1) ∧
    nextOf ac (exec (.sbc (.imm 15)) { base with par := { samplePar with subCarry := .carry }, a := 0, c := 0 }) =
      some (0, 0) := by decide

/-- V-AR4: 0b1010 in the cell is 10. -/
theorem test_inc_dec : nextOf (fun t => (readCell t 3, t.c)) (exec (.incM (.idx .x)) { base with x := 3, c := 1 }) =
      some (some 11, 0) ∧
    nextOf (fun t => (readCell t 3, t.c)) (exec (.decM (.idx .x)) { base with x := 3, ram := [(3, 0)] }) =
      some (some 15, 1) ∧
    faultOf (exec (.incM (.direct 0x200)) base) = some (.unusedWrite 0x200) := by decide

/-- V-AR5: columns C and 1. -/
theorem test_daa : nextOf ac (exec .daa { base with a := 12, c := 0 }) = some (2, 1) ∧
    nextOf ac (exec .daa { base with a := 1, c := 1 }) = some (7, 1) := by decide

/-- V-AR6: columns E and 2. -/
theorem test_das : nextOf ac (exec .das { base with a := 14, c := 1 }) = some (8, 1) ∧
    nextOf ac (exec .das { base with a := 2, c := 0 }) = some (2, 0) := by decide

/-- V-AR8: 0b1100 with 0b1010. -/
theorem test_logic : nextOf (fun t => t.a) (exec (.andA (.idx .x)) { base with a := 12, x := 3 }) = some 8 ∧
    nextOf (fun t => t.a) (exec (.orA (.idx .x)) { base with a := 12, x := 3 }) = some 14 ∧
    nextOf (fun t => t.a) (exec (.xorA (.idx .x)) { base with a := 12, x := 3 }) = some 6 := by decide

/-- V-SK1, V-SK3, V-SK14: a skip past one word, past two, and over the end of the program space. -/
theorem test_skeq : nextOf (fun t => t.pc) (exec (.skeq .a (.imm 4)) { base with a := 4, pc := 0x11 }) = some 0x12 ∧
    nextOf (fun t => t.pc) (exec (.skeq .a (.imm 4)) { base with a := 4, pc := 0x11, prog := placeWord [] 0x11 0x300 })
      = some 0x13 ∧
    nextOf (fun t => t.pc) (exec (.skeq .a (.imm 0)) { base with pc := 0, prog := placeWord [] 0 0x300 }) =
      some 2 := by decide

/-- V-SK4, V-SK5. -/
theorem test_skne : nextOf (fun t => t.pc) (exec (.skne .b (.imm 0)) { base with pc := 0x11 }) = some 0x11 ∧
    nextOf (fun t => t.pc) (exec (.skne .b (.imm 0)) { base with b := 1, pc := 0x11 }) = some 0x12 := by decide

/-- V-SK6, V-SK7. -/
theorem test_sklt : nextOf (fun t => t.pc) (exec (.sklt .a (.imm 4)) { base with a := 3, pc := 0x11 }) = some 0x12 ∧
    nextOf (fun t => t.pc) (exec (.sklt .a (.imm 4)) { base with a := 4, pc := 0x11 }) = some 0x11 := by decide

/-- V-SK11: an index register is compared over its full width. -/
theorem test_skeq_wide : nextOf (fun t => t.pc)
    (exec (.skeq .x (.imm 3)) { base with par := { samplePar with idxExtra := 2 }, x := 0x13, pc := 0x11 }) =
      some 0x11 := by decide

/-- V-BT1, V-BT3. -/
theorem test_bset_bclr : nextOf (fun t => readCell t 1) (exec (.bset 2 (.idx .x)) { base with x := 1, ram := [(1, 0)] }) =
      some (some 4) ∧
    nextOf (fun t => readCell t 1) (exec (.bclr 0 (.direct 1)) { base with ram := [(1, 15)] }) = some (some 14) := by
  decide

/-- V-BT6, V-BT7. -/
theorem test_btst : nextOf (fun t => t.pc) (exec (.btst 2 (.idx .x)) { base with x := 1, pc := 0x11 }) = some 0x12 ∧
    nextOf (fun t => t.pc) (exec (.btst 1 (.idx .x)) { base with x := 1, pc := 0x11 }) = some 0x11 := by decide

/-- V-CT4: `pc0 = 0x0105`, offset 0x12, six bits, base next; and a base on the next page (R111). -/
theorem test_br : nextOf (fun t => t.pc) (exec (.br 0x0D2) { base with pc := 0x106 }) = some 0x112 ∧
    nextOf (fun t => t.pc) (exec (.br 0x0D2) { base with pc := 0x140 }) = some 0x152 := by decide

/-- V-CT13, V-CT2 as far as the target functions go: they are parameters. -/
theorem test_long_targets : nextOf (fun t => t.pc) (exec (.brl 0x304 0x155) base) = some (Config.longTarget 0x304 0x155) ∧
    nextOf (fun t => t.pc) (exec .bnz { base with a := 5, pc := 2 }) = some (Config.bnzTarget 0x244 1) := ⟨rfl, rfl⟩

/-- V-CT1. -/
theorem test_bnz_falls_through : nextOf (fun t => t.pc) (exec .bnz { base with pc := 2 }) = some 2 := by decide

/-- R113: `BRT` completes. -/
theorem test_brt : completes (exec (.brt 0x00F) base) = true := by decide

/-- V-CT5, V-FE6, V-CT8. -/
theorem test_call : nextOf (fun t => (t.stk[0], t.sp)) (exec (.call 0x305 0) { base with pc := 0x42 }) =
      some (0x42, 1) ∧
    nextOf (fun t => (t.stk[63], t.sp)) (exec (.call 0x305 0) { base with pc := 0x200, sp := 64 }) =
      some (0x200, 64) ∧
    faultOf (exec (.call 0x305 0) { base with sp := 64, par := { samplePar with stackPolicy := .refuse } }) =
      some .stackOverflow := by decide

/-- V-CT9, V-FE9. -/
theorem test_ret : nextOf (fun t => (t.pc, t.sp)) (exec .ret { base with pc := 0x51 }) = some (0x51, 0) ∧
    faultOf (exec .ret { base with par := { samplePar with stackPolicy := .refuse } }) = some .stackUnderflow := by
  decide

/-- V-CT10, V-CT11. -/
theorem test_reti : nextOf (fun t => (t.pc, t.sp, t.ie))
      (exec .reti { base with sp := 1, stk := base.stk.set 0 0x123 }) = some (0x123, 0, 1) ∧
    nextOf (fun t => (t.pc, t.ie)) (exec .reti { base with pc := 0x61 }) = some (0x61, 1) := by decide

/-- V-MC1. -/
theorem test_nop : nextOf (fun t => (t.pc, t.events)) (exec .nop { base with pc := 0x11 }) = some (0x11, []) := by decide

/-- V-MC2, V-MC4. -/
theorem test_halt : nextOf (fun t => (t.run, t.events)) (exec .stby base) = some (.halted, [.halt .standby]) ∧
    nextOf (fun t => (t.run, t.events)) (exec .stop base) = some (.halted, [.halt .stop]) := by decide

/-- V-MC5, V-MC6: one word, and two words in the second range. -/
theorem test_illegal : nextOf (fun t => t.events) (exec (.illegal 0x2FF) { base with pc := 0x101 }) =
      some [.illegal 0x100 0x2FF] ∧
    nextOf (fun t => t.events) (exec (.illegal 0x3F0) { base with pc := 0x102 }) = some [.illegal 0x100 0x3F0] := by
  decide

/-- R121: one event, nothing else. -/
theorem test_latch : nextOf (fun t => t.events) (exec (.latch 5 0x096) base) =
    some [.latch 5 (Config.latchArg 5 0x096 (regView base))] := rfl

/-- R118, R122, R80: a two-word `ILLEGAL` costs what `NOP` costs, which is then two cycles at least. -/
theorem test_illegal_cost : samplePar.twoWordIllegal = true ∧
    cost samplePar (.row .illegal) 2 = cost samplePar (.row .nop) 1 := ⟨by decide +kernel, rfl⟩

/-! ## Witnesses

One theorem per statement that has hypotheses: values that meet all of them, for each clause, at the edge of its range
where it has one. The state `full` has a full stack, `refusing` the policy that faults. -/

/-- A full return stack under `saturate`. -/
def full : State :=
  { base with sp := 64 }

/-- The policy that faults, with a full stack. -/
def refusing : State :=
  { full with par := { samplePar with stackPolicy := .refuse } }

/-- `SKEQ`'s word at 0x0010. -/
def fetching : State :=
  { base with pc := 0x10, prog := placeWord [] 0x10 0x064 }

theorem witness_EarlierTierWins : (samplePar.decodeMap.tier1 = [⟨0x3C0, 0x0C0, .br⟩] ++ ⟨0x3F0, 0x010, .ldiR .b⟩ ::
      sampleTier1.drop 2 ∧ (∀ q ∈ [(⟨0x3C0, 0x0C0, .br⟩ : MaskRow)], 0x01F#10 &&& q.mask ≠ q.pattern) ∧
      0x01F#10 &&& 0x3F0#10 = 0x010#10) ∧
    (samplePar.decodeMap.tier2 = sampleTier2.take 3 ++ ⟨0x3F0, 0x080, .sklt .x .imm⟩ :: [] ∧
      (∀ q ∈ samplePar.decodeMap.tier1 ++ sampleTier2.take 3, 0x08F#10 &&& q.mask ≠ q.pattern) ∧
      0x08F#10 &&& 0x3F0#10 = 0x080#10) ∧
    (samplePar.decodeMap.tier3 = [⟨0x000, .mov .ab⟩] ++ ⟨0x001, .ldIdx .a .x⟩ ::
        (sampleOneWord.drop 2 ++ sampleTwoWord) ∧
      (∀ q ∈ samplePar.decodeMap.tier1 ++ samplePar.decodeMap.tier2, 0x001#10 &&& q.mask ≠ q.pattern) ∧
      (∀ q ∈ [(⟨0x000, .mov .ab⟩ : ExactRow)], q.op ≠ 0x001)) := by
  refine ⟨⟨rfl, by decide⟩, ⟨rfl, by decide⟩, rfl, by decide⟩

theorem witness_UnassignedOpcodeDecodesIllegal : isFixedOp 0x2FF = false ∧
    samplePar.decodeMap.tier1.any (fun r => r.claims 0x2FF) = false ∧
    samplePar.decodeMap.tier2.any (fun r => r.claims 0x2FF) = false ∧
    samplePar.decodeMap.tier3.any (fun r => r.op == 0x2FF) = false := by decide

theorem witness_DecodedIsWellFormed : decode samplePar 0x304 0x155 = .ok (.brl 0x304 0x155) ∧
    tw samplePar 0x304 = true ∧ Instr.brl 0x304 0x155 ≠ .illegal 0x304 ∧
    (Instr.brl 0x304 0x155).opcodeWord = some 0x304 ∧
    (decode samplePar 0x03F 0x155 = .ok (.add (.imm 15)) ∧ tw samplePar 0x03F = false ∧
      (Instr.add (.imm 15)).literal = some 15) ∧
    isFixedOp 0x3F7 = false ∧ (handlerAt samplePar.decodeMap 0x3F7).lengthOk (tw samplePar 0x3F7) = true :=
  ⟨rfl, by decide, by decide, rfl, ⟨rfl, by decide, rfl⟩, by decide, by decide⟩

theorem witness_EncodeDecodeRoundTrip : encode samplePar (.ldiA 15) = some [0x23F] ∧
    decode samplePar 0x23F 0 = .ok (.ldiA 15) := ⟨by decide, rfl⟩

theorem witness_PlacedWordIsRead : Memory.sorted [(0, 0x44), (0x7FFF, 3)] = true := by decide

theorem witness_SourceOperandReads : cellHolds { base with x := 15 } (ea (.idx .x) { base with x := 15 }) 2 ∧
    (inRam samplePar (ea (.direct 0xFF) base) = true ∧ readCell base 0xFF = none) ∧
    0x3C0 ≤ (ea (.direct 0x3C0) base).toNat ∧ unusedAddr base (ea (.direct 0x3BF) base) ∧
    unusedAddr base (ea (.direct 0x100) base) := by
  unfold cellHolds unusedAddr; decide

theorem witness_LoadReadsCell : cellHolds { base with y := 15 } (eaIdx .y { base with y := 15 }) 2 ∧
    cellHolds base 0x001 4 := by unfold cellHolds; decide

theorem witness_LoadUnusedIsDraw : unusedAddr { base with x := 0x100 } (eaIdx .x { base with x := 0x100 }) ∧
    unusedAddr base 0x3BF := by unfold unusedAddr; decide

theorem witness_LoadFaults : 0x3C0 ≤ (0x3C0#10).toNat ∧ (inRam samplePar 0xFF = true ∧ readCell base 0xFF = none) ∧
    0x3C0 ≤ (eaIdx .x { base with x := 0x3FF }).toNat ∧
    (inRam samplePar (eaIdx .x base) = true ∧ readCell base (eaIdx .x base) = none) := by decide

theorem witness_StoreWritesCell : readData .a base = .ok 0 ∧ inRam samplePar (eaIdx .x base) = true ∧
    inRam samplePar 0xFF = true := ⟨rfl, by decide, by decide⟩

theorem witness_StoreFaults : readData .b base = .ok 0 ∧ 0x3C0 ≤ (0x3C0#10).toNat ∧ unusedAddr base 0x3BF ∧
    0x3C0 ≤ (eaIdx .x { base with x := 0x3C0 }).toNat ∧
    unusedAddr { base with y := 0x100 } (eaIdx .y { base with y := 0x100 }) := by
  unfold unusedAddr; exact ⟨rfl, by decide⟩

theorem witness_LoadAutoIndexes : cellHolds { base with y := 15 } (eaIdx .y { base with y := 15 }) 2 := by
  unfold cellHolds; decide

theorem witness_StoreAutoIndexes : readData .b base = .ok 0 ∧ inRam samplePar (eaIdx .x base) = true :=
  ⟨rfl, by decide⟩

theorem witness_AddResult : readSrc (.imm 15) base = .ok (15, base) ∧
    readSrc (.mem (.direct 3)) base = .ok (10, base) ∧
    readSrc (.mem (.direct 0x3C0)) base = .error (.stackWindow 0x3C0) := ⟨rfl, rfl, rfl⟩

theorem witness_AdcResult : readSrc (.mem (.direct 3)) { base with c := 1 } = .ok (10, { base with c := 1 }) ∧
    readSrc (.mem (.direct 0xFF)) base = .error (.undefCell 0xFF) := ⟨rfl, rfl⟩

theorem witness_SbcResult : readSrc (.imm 15) base = .ok (15, base) ∧ base.par.subCarry = .borrow ∧
    { base with par := { samplePar with subCarry := .carry } }.par.subCarry = .carry ∧
    readSrc (.mem (.direct 0x3FF)) base = .error (.stackWindow 0x3FF) := ⟨rfl, rfl, rfl, rfl⟩

theorem witness_SbcPolaritiesAgree : base.par.subCarry = .borrow ∧ readSrc (.imm 15) base = .ok (15, base) ∧
    readSrc (.mem (.direct 0x200)) base = .ok (Config.freeNibble 0, { base with draws := 1 }) := ⟨rfl, rfl, rfl⟩

theorem witness_IncDecCell : cellHolds base (ea (.direct 3) base) 10 := by unfold cellHolds; decide

theorem witness_ReadModifyWriteFaults : Instr.incM (.direct 0x100) = .incM (.direct 0x100) ∧
    unusedAddr base (ea (.direct 0x100) base) ∧ 0x3C0 ≤ (ea (.direct 0x3C0) base).toNat ∧
    (inRam samplePar (ea (.direct 0xFF) base) = true ∧ readCell base (ea (.direct 0xFF) base) = none) := by
  unfold unusedAddr; decide

theorem witness_DecimalAdjustRange : 9 < { base with a := 10 }.a.toNat := by decide

theorem witness_DecimalAdjustReference : base.par.daa = AdjustTable.p0Daa ∧ base.par.das = AdjustTable.p0Das := ⟨rfl, rfl⟩

theorem witness_LogicResult : readMem (.direct 3) base = .ok (10, base) ∧
    readMem (.direct 0x200) base = .ok (Config.freeNibble 0, { base with draws := 1 }) ∧
    readMem (.direct 0x3C0) base = .error (.stackWindow 0x3C0) := ⟨rfl, rfl, rfl⟩

theorem witness_CompareSkips : readSrc (.imm 4) base = .ok (4, base) ∧
    readSrc (.mem (.idx .x)) { base with x := 3 } = .ok (10, { base with x := 3 }) ∧
    readSrc (.mem (.idx .x)) base = .error (.undefCell 0) := ⟨rfl, rfl, rfl⟩

theorem witness_BitSetClear : cellHolds base (ea (.direct 1) base) 4 := by unfold cellHolds; decide

theorem witness_BitTestSkips : readMem (.direct 1) base = .ok (4, base) ∧
    readMem (.direct 0x3C0) base = .error (.stackWindow 0x3C0) := ⟨rfl, rfl⟩

/-- The sample machine with parameter functions that may read `W`. -/
def readsW : State :=
  { base with par := { samplePar with latchMayReadW := true, tableMayReadW := true } }

theorem witness_LongBranchTargets : base.par.tableMayReadW = false ∧ readsW.par.tableMayReadW = true := ⟨rfl, rfl⟩

theorem witness_ModeControlEffects : base.par.latchMayReadW = false ∧ readsW.par.latchMayReadW = true := ⟨rfl, rfl⟩

theorem witness_BranchNonZero : base.a = 0 ∧ { base with a := 1 }.a ≠ 0 := ⟨rfl, by decide⟩

theorem witness_CallPushesAndJumps : pushOk { base with sp := 63 } ∧ pushOk full ∧
    (refusing.sp.val = 64 ∧ refusing.par.stackPolicy = .refuse) := ⟨.inl (by decide), .inr rfl, rfl, rfl⟩

theorem witness_ReturnPops : (63 : Fin 64).val + 1 = full.sp.val ∧ (0 : Fin 64).val + 1 = { base with sp := 1 }.sp.val ∧
    (base.sp = 0 ∧ base.par.stackPolicy = .saturate) ∧
    ({ refusing with sp := 0 }.sp = 0 ∧ { refusing with sp := 0 }.par.stackPolicy = .refuse) :=
  ⟨rfl, rfl, ⟨rfl, rfl⟩, rfl, rfl⟩

theorem witness_ReturnFromInterruptEnables : (63 : Fin 64).val + 1 = full.sp.val ∧
    (base.sp = 0 ∧ base.par.stackPolicy = .saturate) ∧
    ({ refusing with sp := 0 }.sp = 0 ∧ { refusing with sp := 0 }.par.stackPolicy = .refuse) :=
  ⟨rfl, ⟨rfl, rfl⟩, rfl, rfl⟩

theorem witness_CallReturnRoundTrip : { base with sp := 63 }.sp.val < 64 := by decide

theorem witness_StepRunsDecoded : fetchesNext fetching ∧ nextInstr fetching = .ok (.skeq .a (.imm 4)) :=
  ⟨⟨rfl, by decide⟩, rfl⟩

theorem witness_StepRefusesBrokenDecode : fetchesNext { base with prog := placeWord [] 0 0x308 } ∧
    nextInstr { base with prog := placeWord [] 0 0x308 } = .error (.lengthRule 0x308) := ⟨⟨rfl, by decide⟩, rfl⟩

theorem witness_InterruptAcknowledge : full.run = .fetching ∧ { full with ie := 1 }.ie = 1 ∧ pushOk { full with ie := 1 } ∧
    (hostInput { full with inputs := [⟨true, false, false⟩] }).int0 = !false ∧
    (hostInput { full with inputs := [⟨false, true, false⟩] }).int1 = true ∧
    (hostInput { full with inputs := [⟨true, true, false⟩] }).int0 = true ∧
    (hostInput { full with inputs := [⟨true, true, false⟩] }).int1 = true ∧
    (refusing.sp.val = 64 ∧ refusing.par.stackPolicy = .refuse) :=
  ⟨rfl, rfl, .inr rfl, rfl, rfl, rfl, rfl, rfl, rfl⟩

theorem witness_MaskedLinesHaveNoEffect : base.ie = 0 := rfl

theorem witness_HaltedStepIdlesOrWakes : { base with run := .halted }.run = .halted ∧ (hostInput base).wake = false ∧
    (hostInput { base with inputs := [⟨true, false, true⟩] }).wake = true := ⟨rfl, rfl, rfl⟩

theorem witness_FetchingStepSpendsBudget : decode samplePar 0x3F0 0x111 = .ok (.illegal 0x3F0) ∧
    fetchesNext fetching ∧ completes (step fetching) = true := ⟨rfl, ⟨rfl, by decide⟩, by decide⟩

theorem witness_ResetMeetsInv : Memory.progWf [(0, 0x30), (1, 2), (0x7FFF, 3)] = true ∧
    Memory.wf [(0, 0), (0x3FF, 15)] = true := by decide

theorem witness_StepKeepsInv : fetching.Inv ∧ completes (step fetching) = true :=
  ⟨⟨by decide, by decide, by decide, by decide⟩, by decide⟩

theorem witness_StepKeepsConfiguration : completes (step fetching) = true := by decide

theorem witness_OnlyRetiEnables :
    nextOf (fun t => t.ie) (step { base with sp := 1, prog := placeWord [] 0 0x092 }) = some 1 ∧ base.ie = 0 :=
  ⟨by decide, rfl⟩

theorem witness_OnlyNamedWritersWrite : exec (.ldiA 7) base = .next { base with a := 7 } ∧
    (writes (.ldiA 7)).b = false := ⟨rfl, rfl⟩

theorem witness_OnlyStoredCellChanges : completes (exec (.stDir .a 0xFF) base) = true ∧
    storeAddr base (.stDir .a 0xFF) = some 0xFF ∧ storeAddr base (.add (.imm 1)) = none := by decide

theorem witness_StoresStayInRam : completes (exec (.stDir .a 0xFF) base) = true ∧
    storeAddr base (.stDir .a 0xFF) = some 0xFF := by decide

theorem witness_EventsOnlyAppend : completes (step fetching) = true ∧ fetchesNext fetching := ⟨by decide, rfl, by decide⟩

theorem witness_IllegalStepIdempotence : fetchesNext { base with prog := placeWord [] 0 0x3F0 } ∧
    nextInstr { base with prog := placeWord [] 0 0x3F0 } = .ok (.illegal 0x3F0) := ⟨⟨rfl, by decide⟩, rfl⟩

end Sys2Proof.Tests
end

section
/-! Proofs about the scope of the core (00_scope.md): what no step changes, what a step does to the observation, and
that the Variant Descriptor is read nowhere. -/

namespace Sys2Proof.Machine

/-! ## Shapes of an instruction -/

/-- An instruction that is one operation answers a next state exactly where the operation does. -/
theorem andThen_pure_next {r : Except Fault State} {t : State} : andThen r .next = .next t ↔ r = .ok t := by
  cases r <;> simp [andThen]

/-- `BNZ` changes at most `PC` (R114). -/
theorem execBnz_next {s t : State} (h : execBnz s = .next t) : ∃ pc, t = { s with pc := pc } := by
  unfold execBnz at h
  split at h
  · cases h; exact ⟨s.pc, rfl⟩
  · cases h; exact ⟨_, rfl⟩

/-! ## What every step keeps -/

/-- `t` comes after `s` in a run: the parameters, the program store and `TB` are those of `s`, and the observation
extends that of `s`. -/
structure Follows (s t : State) : Prop where
  par : t.par = s.par
  prog : t.prog = s.prog
  tb : t.tb = s.tb
  events : s.events <+: t.events

/-- An update that emits nothing and keeps the configuration. -/
theorem Follows.of_events_eq {s t : State} (hpar : t.par = s.par) (hprog : t.prog = s.prog) (htb : t.tb = s.tb)
    (hev : t.events = s.events) : Follows s t :=
  ⟨hpar, hprog, htb, hev ▸ List.prefix_rfl⟩

theorem Follows.refl (s : State) : Follows s s :=
  .of_events_eq rfl rfl rfl rfl

theorem Follows.trans {s t u : State} (hst : Follows s t) (htu : Follows t u) : Follows s u :=
  ⟨htu.par.trans hst.par, htu.prog.trans hst.prog, htu.tb.trans hst.tb, hst.events.trans htu.events⟩

theorem follows_emit (s : State) (e : Event) : Follows s (emit s e) :=
  ⟨rfl, rfl, rfl, List.prefix_append _ _⟩

theorem follows_autoIdx (i : IdxReg) (d : Dir) (s : State) : Follows s (autoIdx i d s) :=
  .of_events_eq (by simp) (by simp) (by simp) (by simp)

theorem follows_writeData (r : DataReg) (v : Nibble) (s : State) : Follows s (writeData r v s) :=
  .of_events_eq (by simp) (by simp) (by simp) (by simp)

theorem follows_writeIdx (i : IdxReg) (v : BitVec 10) (s : State) : Follows s (writeIdx i v s) :=
  .of_events_eq (by simp) (by simp) (by simp) (by simp)

theorem follows_haltWith (k : HaltKind) (s : State) : Follows s (haltWith k s) :=
  ⟨rfl, rfl, rfl, List.prefix_append _ _⟩

theorem loadFrom_follows {r : DataReg} {e : DataAddr} {s t : State} (h : loadFrom r e s = .ok t) : Follows s t := by
  obtain ⟨v, u, hu, rfl⟩ := loadFrom_ok h
  obtain ⟨n, rfl⟩ := memRead_frame hu
  exact .trans (t := { s with draws := n }) (.of_events_eq rfl rfl rfl rfl) (follows_writeData r v _)

theorem storeTo_follows {r : DataReg} {e : DataAddr} {s t : State} (h : storeTo r e s = .ok t) : Follows s t := by
  obtain ⟨-, -, -, rfl⟩ := storeTo_ok h
  exact .of_events_eq rfl rfl rfl rfl

theorem arithmetic_follows {f : Nibble → Nibble → BitVec 1 → Nibble × BitVec 1} {o : SrcOp} {s t : State}
    (h : arithmetic f o s = .next t) : Follows s t := by
  obtain ⟨_, _, rfl⟩ := arithmetic_next h
  exact .of_events_eq rfl rfl rfl rfl

theorem logic_follows {f : Nibble → Nibble → Nibble} {m : MemOp} {s t : State} (h : logic f m s = .next t) :
    Follows s t := by
  obtain ⟨_, _, _, rfl⟩ := logic_next h
  exact .of_events_eq rfl rfl rfl rfl

theorem modifyCell_follows {f : Nibble → Nibble × BitVec 1} {m : MemOp} {s t : State}
    (h : modifyCell f m s = .next t) : Follows s t := by
  obtain ⟨_, -, rfl⟩ := modifyCell_next h
  exact .of_events_eq rfl rfl rfl rfl

theorem rewriteCell_follows {f : Nibble → Nibble} {m : MemOp} {s t : State} (h : rewriteCell f m s = .next t) :
    Follows s t := by
  obtain ⟨_, -, rfl⟩ := rewriteCell_next h
  exact .of_events_eq rfl rfl rfl rfl

theorem compareSkip_follows {rel : Nat → Nat → Bool} {r : CmpReg} {o : SrcOp} {s t : State}
    (h : compareSkip rel r o s = .next t) : Follows s t := by
  obtain ⟨_, _, _, rfl⟩ := compareSkip_next h
  exact .of_events_eq rfl rfl rfl rfl

theorem returnTo_follows {s t : State} (h : returnTo s = .ok t) : Follows s t := by
  rw [returnTo_frame h]
  exact .of_events_eq rfl rfl rfl rfl

theorem execMov_follows {p : MovPair} {s t : State} (h : execMov p s = .next t) : Follows s t := by
  cases p <;> cases h <;> exact follows_writeData _ _ s

/-- No instruction changes the configuration or takes back an event (R6, R11, R23, R43). -/
theorem exec_follows {i : Instr} {s t : State} (h : exec i s = .next t) : Follows s t := by
  cases i with
  | mov p => exact execMov_follows h
  | ldIdx r j | ldDir r d => exact loadFrom_follows (andThen_pure_next.1 h)
  | stIdx r j | stDir r d => exact storeTo_follows (andThen_pure_next.1 h)
  | ldAuto r j dir =>
    obtain ⟨u, hu, hn⟩ := andThen_next.1 h
    cases hn
    exact (loadFrom_follows hu).trans (follows_autoIdx j dir u)
  | stAuto r j dir =>
    obtain ⟨u, hu, hn⟩ := andThen_next.1 h
    cases hn
    exact (storeTo_follows hu).trans (follows_autoIdx j dir u)
  | ldiA n => cases h; exact follows_writeData .a n s
  | ldiR r n => cases r <;> cases h <;> exact follows_writeData _ n s
  | ldiX j n => cases h; exact follows_writeIdx j _ s
  | add o | adc o | sbc o =>
    simp only [exec, execAdd, execAdc, execSbc] at h
    exact arithmetic_follows h
  | incM m | decM m => exact modifyCell_follows h
  | andA m | orA m | xorA m => exact logic_follows h
  | skeq r o | skne r o | sklt r o =>
    simp only [exec, execSkeq, execSkne, execSklt] at h
    exact compareSkip_follows h
  | bset n m | bclr n m =>
    simp only [exec, execBset, execBclr] at h
    exact rewriteCell_follows h
  | btst n m =>
    obtain ⟨_, _, _, rfl⟩ := execBtst_next h
    exact .of_events_eq rfl rfl rfl rfl
  | daa | das | br op | brl op w2 | nop => cases h; exact .of_events_eq rfl rfl rfl rfl
  | brt op =>
    obtain ⟨a, -, hn⟩ := andThen_next.1 h
    cases hn
    exact .of_events_eq rfl rfl rfl rfl
  | bnz =>
    obtain ⟨pc, rfl⟩ := execBnz_next h
    exact .of_events_eq rfl rfl rfl rfl
  | call op w2 =>
    rw [(execCall_next h).2]
    exact .of_events_eq rfl rfl rfl rfl
  | ret => exact returnTo_follows (andThen_pure_next.1 h)
  | reti =>
    obtain ⟨u, hu, rfl⟩ := map_ok_iff.1 (andThen_pure_next.1 h)
    exact (returnTo_follows hu).trans (.of_events_eq rfl rfl rfl rfl)
  | stby | stop => cases h; exact follows_haltWith _ s
  | latch k op =>
    obtain ⟨arg, -, hn⟩ := andThen_next.1 h
    cases hn
    exact follows_emit s _
  | illegal op => cases h; exact follows_emit s _

theorem haltedStep_follows (inp : HostInput) (s : State) : Follows s (haltedStep inp s) := by
  unfold haltedStep
  split
  · exact ⟨rfl, rfl, rfl, List.prefix_append _ _⟩
  · exact .of_events_eq rfl rfl rfl rfl

theorem ackStep_follows {inp : HostInput} {s t : State} (h : ackStep inp s = .next t) : Follows s t := by
  obtain ⟨_, _, _, -, rfl⟩ := ackStep_next h
  exact ⟨rfl, rfl, rfl, List.prefix_append _ _⟩

theorem follows_takeInput (s : State) : Follows s (takeInput s) :=
  .of_events_eq rfl rfl rfl rfl

theorem follows_charge (n : Nat) (s : State) : Follows s (charge n s) :=
  .of_events_eq rfl rfl rfl rfl

theorem follows_fetched (s : State) : Follows s (fetched s) :=
  ⟨rfl, rfl, rfl, List.prefix_append _ _⟩

/-- The state a fetching step answers comes after the fetched one, whose last event is the step's `Trace` (R73). -/
theorem step_follows_fetched {s t : State} (h : step s = .next t) (hf : fetchesNext s) : Follows (fetched s) t := by
  obtain ⟨hr, hd⟩ := hf
  rcases step_cases h with ⟨hh, -⟩ | ⟨-, hdue, -⟩ | ⟨-, i, u, -, hu, rfl⟩
  · simp [hr] at hh
  · simp [hd] at hdue
  · exact (exec_follows hu).trans (follows_charge _ u)

/-- Every state a step answers comes after the one it began in: idle, acknowledge or instruction (R75). -/
theorem step_follows {s t : State} (h : step s = .next t) : Follows s t := by
  rcases step_cases h with ⟨-, rfl⟩ | ⟨-, -, ha⟩ | ⟨hf, -⟩
  · exact (follows_takeInput s).trans (haltedStep_follows _ _)
  · exact (follows_takeInput s).trans (ackStep_follows ha)
  · exact (follows_fetched s).trans (step_follows_fetched h hf)

/-- Settles O52: every step, of whatever kind, keeps the configuration. -/
theorem stepKeepsConfiguration : Obligations.StepKeepsConfiguration := by
  intro s t h
  have hst := step_follows h
  exact ⟨hst.par, hst.prog, hst.tb⟩

/-- Settles O58: a fetching step begins with the `Trace`, and its instruction only appends to that. -/
theorem eventsOnlyAppend : Obligations.EventsOnlyAppend := by
  intro s t h
  by_cases hf : fetchesNext s
  · obtain ⟨rest, hrest⟩ := (step_follows_fetched h hf).events
    exact ⟨.trace s.pc :: rest, by simp [← hrest, fetched], fun _ => ⟨rest, rfl⟩⟩
  · obtain ⟨es, hes⟩ := (step_follows h).events
    exact ⟨es, hes.symm, fun hfetch => absurd hfetch hf⟩

/-! ## The Variant Descriptor

Each operation on the state, said once: it commutes with the change of descriptor (R6). A condition an operation tests
(`inRam`, `tw`, `decode`, a policy) reads parameters other than the descriptor, so both sides test the same one. -/

section
variable (v : Variant)

/-- An operation that may fault, run under another descriptor. -/
abbrev mapState (r : Except Fault State) : Except Fault State :=
  r.map (withVariant v)

/-- An operation with a value, run under another descriptor: the value is the same. -/
abbrev mapValued {α : Type} (r : Except Fault (α × State)) : Except Fault (α × State) :=
  r.map (Prod.map id (withVariant v))

/-- A sequence commutes with the change of descriptor where its operation and its rest do. -/
theorem andThen_map_of_commutes {α : Type} {f : α → α} {k k' : α → Result}
    (hk : ∀ q, k' (f q) = mapNext (withVariant v) (k q)) (r : Except Fault α) :
    andThen (r.map f) k' = mapNext (withVariant v) (andThen r k) := by
  cases r with
  | error e => rfl
  | ok q => exact hk q

/-- As `andThen_map_of_commutes`, where the operation's value holds no state. -/
theorem andThen_of_commutes {α : Type} {k k' : α → Result} (hk : ∀ q, k' q = mapNext (withVariant v) (k q))
    (r : Except Fault α) : andThen r k' = mapNext (withVariant v) (andThen r k) := by
  cases r with
  | error e => rfl
  | ok q => exact hk q

/-- An operation's value carried on commutes with a change before and after. -/
theorem map_map_of_commutes {α β : Type} {f : α → α} {g : β → β} {k : α → β} (hk : ∀ q, k (f q) = g (k q))
    (r : Except Fault α) : (r.map f).map k = (r.map k).map g := by
  cases r with
  | error e => rfl
  | ok q => exact congrArg Except.ok (hk q)

theorem memRead_withVariant (s : State) (e : DataAddr) :
    memRead (withVariant v s) e = mapValued v (memRead s e) := by
  unfold memRead
  rw [show inRam (withVariant v s).par e = inRam s.par e from rfl,
    show readCell (withVariant v s) e = readCell s e from rfl]
  split
  · split <;> rfl
  · split <;> rfl

theorem memWrite_withVariant (s : State) (e : DataAddr) (n : Nibble) :
    memWrite (withVariant v s) e n = mapState v (memWrite s e n) := by
  unfold memWrite
  rw [show inRam (withVariant v s).par e = inRam s.par e from rfl]
  split
  · rfl
  · split <;> rfl

theorem writeData_withVariant (r : DataReg) (n : Nibble) (s : State) :
    writeData r n (withVariant v s) = withVariant v (writeData r n s) := by
  cases r <;> rfl

theorem writeIdx_withVariant (i : IdxReg) (n : BitVec 10) (s : State) :
    writeIdx i n (withVariant v s) = withVariant v (writeIdx i n s) := by
  cases i <;> rfl

theorem autoIdx_withVariant (i : IdxReg) (d : Dir) (s : State) :
    autoIdx i d (withVariant v s) = withVariant v (autoIdx i d s) := by
  cases i <;> cases d <;> rfl

theorem eaIdx_withVariant (i : IdxReg) (s : State) : eaIdx i (withVariant v s) = eaIdx i s := rfl

theorem readMem_withVariant (m : MemOp) (s : State) :
    readMem m (withVariant v s) = mapValued v (readMem m s) :=
  memRead_withVariant v s _

theorem readSrc_withVariant (o : SrcOp) (s : State) :
    readSrc o (withVariant v s) = mapValued v (readSrc o s) := by
  cases o with
  | imm n => rfl
  | mem m => exact readMem_withVariant v m s

theorem skipIf_withVariant (b : Bool) (s : State) :
    skipIf b (withVariant v s) = withVariant v (skipIf b s) := by
  cases b <;> rfl

theorem jumpIf_withVariant (a : Option ProgAddr) (s : State) :
    jumpIf a (withVariant v s) = withVariant v (jumpIf a s) := by
  cases a <;> rfl

theorem push_withVariant (s : State) (a : ProgAddr) :
    push (withVariant v s) a = mapState v (push s a) := by
  unfold push
  rw [show (withVariant v s).par.stackPolicy = s.par.stackPolicy from rfl]
  by_cases h : s.sp.val < 64
  · rw [dif_pos h, dif_pos (show (withVariant v s).sp.val < 64 from h)]
    rfl
  · rw [dif_neg h, dif_neg (show ¬ (withVariant v s).sp.val < 64 from h)]
    cases s.par.stackPolicy <;> rfl

theorem pop_withVariant (s : State) : pop (withVariant v s) = mapValued v (pop s) := by
  unfold pop
  rw [show (withVariant v s).par.stackPolicy = s.par.stackPolicy from rfl]
  by_cases h : 0 < s.sp.val
  · rw [dif_pos h, dif_pos (show 0 < (withVariant v s).sp.val from h)]
    rfl
  · rw [dif_neg h, dif_neg (show ¬ 0 < (withVariant v s).sp.val from h)]
    cases s.par.stackPolicy <;> rfl

theorem returnTo_withVariant (s : State) : returnTo (withVariant v s) = mapState v (returnTo s) := by
  unfold returnTo
  rw [pop_withVariant]
  exact map_map_of_commutes (fun q => jumpIf_withVariant v q.1 q.2) _

theorem returnFromInterrupt_withVariant (s : State) :
    returnFromInterrupt (withVariant v s) = mapState v (returnFromInterrupt s) := by
  unfold returnFromInterrupt
  rw [returnTo_withVariant]
  exact map_map_of_commutes (fun _ => by rfl) _

theorem interruptAck_withVariant (k : Bool) (s : State) :
    interruptAck k (withVariant v s) = mapState v (interruptAck k s) := by
  unfold interruptAck
  rw [show (withVariant v s).pc = s.pc from rfl, push_withVariant]
  exact map_map_of_commutes (fun _ => by rfl) _

theorem loadFrom_withVariant (r : DataReg) (e : DataAddr) (s : State) :
    loadFrom r e (withVariant v s) = mapState v (loadFrom r e s) := by
  unfold loadFrom
  rw [memRead_withVariant]
  exact map_map_of_commutes (fun q => writeData_withVariant v r q.1 q.2) _

theorem storeTo_withVariant (r : DataReg) (e : DataAddr) (s : State) :
    storeTo r e (withVariant v s) = mapState v (storeTo r e s) := by
  cases r with
  | a | b => exact memWrite_withVariant v s e _
  | w => rfl

theorem arithmetic_withVariant (f : Nibble → Nibble → BitVec 1 → Nibble × BitVec 1) (o : SrcOp) (s : State) :
    arithmetic f o (withVariant v s) = mapNext (withVariant v) (arithmetic f o s) := by
  unfold arithmetic
  rw [readSrc_withVariant]
  exact andThen_map_of_commutes v (fun _ => by rfl) _

theorem logic_withVariant (f : Nibble → Nibble → Nibble) (m : MemOp) (s : State) :
    logic f m (withVariant v s) = mapNext (withVariant v) (logic f m s) := by
  unfold logic
  rw [readMem_withVariant]
  exact andThen_map_of_commutes v (fun _ => by rfl) _

theorem modifyCell_withVariant (f : Nibble → Nibble × BitVec 1) (m : MemOp) (s : State) :
    modifyCell f m (withVariant v s) = mapNext (withVariant v) (modifyCell f m s) := by
  unfold modifyCell
  rw [readMem_withVariant]
  refine andThen_map_of_commutes v (fun q => ?_) _
  rw [Prod.map_snd, memWrite_withVariant]
  exact andThen_map_of_commutes v (fun _ => by rfl) _

theorem rewriteCell_withVariant (f : Nibble → Nibble) (m : MemOp) (s : State) :
    rewriteCell f m (withVariant v s) = mapNext (withVariant v) (rewriteCell f m s) := by
  unfold rewriteCell
  rw [readMem_withVariant]
  refine andThen_map_of_commutes v (fun q => ?_) _
  rw [Prod.map_snd, memWrite_withVariant]
  exact andThen_map_of_commutes v (fun _ => by rfl) _

theorem compareSkip_withVariant (rel : Nat → Nat → Bool) (r : CmpReg) (o : SrcOp) (s : State) :
    compareSkip rel r o (withVariant v s) = mapNext (withVariant v) (compareSkip rel r o s) := by
  unfold compareSkip
  rw [readSrc_withVariant]
  refine andThen_map_of_commutes v (fun q => ?_) _
  exact congrArg _ (skipIf_withVariant v _ (drawCarry q.2))

theorem execBtst_withVariant (n : Fin 4) (m : MemOp) (s : State) :
    execBtst n m (withVariant v s) = mapNext (withVariant v) (execBtst n m s) := by
  unfold execBtst
  rw [readMem_withVariant]
  refine andThen_map_of_commutes v (fun q => ?_) _
  exact congrArg _ (skipIf_withVariant v _ (drawCarry q.2))

theorem execMov_withVariant (p : MovPair) (s : State) :
    execMov p (withVariant v s) = mapNext (withVariant v) (execMov p s) := by
  cases p <;> rfl

theorem execBnz_withVariant (s : State) :
    execBnz (withVariant v s) = mapNext (withVariant v) (execBnz s) := by
  unfold execBnz
  rw [show (withVariant v s).a = s.a from rfl]
  split <;> rfl

theorem execCall_withVariant (op w2 : OpWord) (s : State) :
    execCall op w2 (withVariant v s) = mapNext (withVariant v) (execCall op w2 s) := by
  unfold execCall
  rw [show (withVariant v s).pc = s.pc from rfl, push_withVariant]
  exact andThen_map_of_commutes v (fun _ => by rfl) _

/-- No instruction depends on the Variant Descriptor (R6). -/
theorem exec_withVariant (i : Instr) (s : State) :
    exec i (withVariant v s) = mapNext (withVariant v) (exec i s) := by
  cases i with
  | mov p => exact execMov_withVariant v p s
  | ldIdx r j | ldDir r d =>
    simp only [exec, execLdIdx, execLdDir, eaIdx_withVariant, loadFrom_withVariant]
    exact andThen_map_of_commutes v (fun _ => by rfl) _
  | stIdx r j | stDir r d =>
    simp only [exec, execStIdx, execStDir, eaIdx_withVariant, storeTo_withVariant]
    exact andThen_map_of_commutes v (fun _ => by rfl) _
  | ldAuto r j dir =>
    simp only [exec, execLdAuto, eaIdx_withVariant, loadFrom_withVariant]
    refine andThen_map_of_commutes v (fun t => ?_) _
    exact congrArg _ (autoIdx_withVariant v j dir t)
  | stAuto r j dir =>
    simp only [exec, execStAuto, eaIdx_withVariant, storeTo_withVariant]
    refine andThen_map_of_commutes v (fun t => ?_) _
    exact congrArg _ (autoIdx_withVariant v j dir t)
  | ldiR r n => cases r <;> rfl
  | ldiX j n => exact congrArg _ (writeIdx_withVariant v j _ s)
  | add o | adc o =>
    simp only [exec, execAdd, execAdc, arithmetic_withVariant]
  | sbc o => exact arithmetic_withVariant v _ o s
  | incM m | decM m => exact modifyCell_withVariant v _ m s
  | andA m | orA m | xorA m => exact logic_withVariant v _ m s
  | skeq r o | skne r o | sklt r o =>
    simp only [exec, execSkeq, execSkne, execSklt, compareSkip_withVariant]
  | bset n m | bclr n m =>
    simp only [exec, execBset, execBclr, rewriteCell_withVariant]
  | btst n m => exact execBtst_withVariant v n m s
  | brt op => exact andThen_of_commutes v (fun _ => by rfl) (tableTarget op s)
  | bnz => exact execBnz_withVariant v s
  | call op w2 => exact execCall_withVariant v op w2 s
  | ret =>
    simp only [exec, execRet, returnTo_withVariant]
    exact andThen_map_of_commutes v (fun _ => by rfl) _
  | reti =>
    simp only [exec, execReti, returnFromInterrupt_withVariant]
    exact andThen_map_of_commutes v (fun _ => by rfl) _
  | latch k op => exact andThen_of_commutes v (fun _ => by rfl) (latchArg k op s)
  | ldiA _ | daa | das | br _ | brl _ _ | nop | stby | stop | illegal _ => rfl

theorem haltedStep_withVariant (inp : HostInput) (s : State) :
    haltedStep inp (withVariant v s) = withVariant v (haltedStep inp s) := by
  unfold haltedStep
  split <;> rfl

theorem chooseLine_withVariant (inp : HostInput) (s : State) :
    chooseLine inp (withVariant v s) = Prod.map id (withVariant v) (chooseLine inp s) := by
  unfold chooseLine
  split <;> rfl

theorem ackStep_withVariant (inp : HostInput) (s : State) :
    ackStep inp (withVariant v s) = mapNext (withVariant v) (ackStep inp s) := by
  simp only [ackStep, chooseLine_withVariant, Prod.map_fst, Prod.map_snd, id, interruptAck_withVariant]
  exact andThen_map_of_commutes v (fun _ => by rfl) _

theorem chargeNext_withVariant (n : Nat) (r : Result) :
    chargeNext n (mapNext (withVariant v) r) = mapNext (withVariant v) (chargeNext n r) := by
  cases r <;> rfl

theorem fetchesNext_withVariant (s : State) : fetchesNext (withVariant v s) ↔ fetchesNext s := Iff.rfl

/-- A fetching step finds the same instruction under any descriptor, at the same cost (R6, R80). -/
theorem fetchingStep_withVariant {s : State} (hf : fetchesNext s) :
    step (withVariant v s) = mapNext (withVariant v) (step s) := by
  rw [step_fetches hf, step_fetches ((fetchesNext_withVariant v s).2 hf),
    show nextInstr (withVariant v s) = nextInstr s from rfl]
  cases nextInstr s with
  | error e => rfl
  | ok i =>
    calc chargeNext (stepCost s) (exec i (withVariant v (fetched s)))
        = chargeNext (stepCost s) (mapNext (withVariant v) (exec i (fetched s))) := by rw [exec_withVariant]
      _ = mapNext (withVariant v) (chargeNext (stepCost s) (exec i (fetched s))) := chargeNext_withVariant v _ _

end

/-- Settles O53: the three kinds of step (R75), each of which commutes with the change of descriptor. -/
theorem variantHasNoEffect : Obligations.VariantHasNoEffect := by
  intro s v
  cases hr : s.run with
  | halted =>
    rw [step_halted hr, step_halted (s := withVariant v s) hr]
    exact congrArg _ (haltedStep_withVariant v (hostInput s) (takeInput s))
  | fetching =>
    cases hd : interruptDue (hostInput s) s with
    | true =>
      rw [step_ack hr hd, step_ack (s := withVariant v s) hr hd]
      exact ackStep_withVariant v (hostInput s) (takeInput s)
    | false => exact fetchingStep_withVariant v ⟨hr, hd⟩

end Sys2Proof.Machine
end

section
/-! Proofs about the state (10_state.md): what an instruction may write outside memory and in it, the invariant of the
two stores and the index registers, the one writer of `IE = 1`, and where a store faults. -/

namespace Sys2Proof.Machine

/-! ## Where a store faults -/

theorem storeTo_of_readData {r : DataReg} {s : State} {v : Nibble} (h : readData r s = .ok v) (e : DataAddr) :
    storeTo r e s = memWrite s e v := by
  simp [storeTo, h, Except.bind]

/-- Both indexed stores end in the fault of the store itself; the index register is then not stepped (R88, R91). -/
theorem exec_stIndexed_fault {r : DataReg} {i : IdxReg} {s : State} {f : Fault}
    (h : storeTo r (eaIdx i s) s = .error f) (dir : Dir) :
    exec (.stIdx r i) s = .fault f ∧ exec (.stAuto r i dir) s = .fault f := by
  simp [exec, execStIdx, execStAuto, h]

theorem exec_stDir_fault {r : DataReg} {d : DataAddr} {s : State} {f : Fault} (h : storeTo r d s = .error f) :
    exec (.stDir r d) s = .fault f := by
  simp [exec, execStDir, h]

/-- Settles O17: a store reads its register first, then faults as `MemWrite` does. -/
theorem storeFaults : Obligations.StoreFaults := by
  intro s r v i dir d
  refine ⟨⟨rfl, rfl, rfl⟩, fun hr hd => ?_, fun hr hd => ?_, fun hr he => ?_, fun hr he => ?_⟩
  · exact exec_stDir_fault ((storeTo_of_readData hr d).trans (memWrite_window hd))
  · exact exec_stDir_fault ((storeTo_of_readData hr d).trans (memWrite_unused hd))
  · exact exec_stIndexed_fault ((storeTo_of_readData hr _).trans (memWrite_window he)) dir
  · exact exec_stIndexed_fault ((storeTo_of_readData hr _).trans (memWrite_unused he)) dir

/-! ## What an instruction writes

One case split over the instructions says both what the access matrix lets each of them write and where it stores; the
obligations below are read off from it. -/

/-- From `s` to `t` nothing outside memory changed but what the row `m` of the access matrix lists (R29). -/
structure WritesWithin (m : Writes) (s t : State) : Prop where
  a : m.a = false → t.a = s.a
  b : m.b = false → t.b = s.b
  w : m.w = false → t.w = s.w
  x : m.x = false → t.x = s.x
  y : m.y = false → t.y = s.y
  c : m.c = false → t.c = s.c
  pc : m.pc = false → t.pc = s.pc
  stack : m.stack = false → t.sp = s.sp ∧ t.stk = s.stk
  ie : m.ie = false → t.ie = s.ie
  run : m.run = false → t.run = s.run
  event : m.event = false → t.events = s.events
  inputs : t.inputs = s.inputs
  budget : t.budget = s.budget

/-- The RAM of `t` is that of `s`, with a nibble written at the address stored to, if there is one (R39). -/
def RamAfter (s t : State) : Option DataAddr → Prop
  | none => t.ram = s.ram
  | some e => inRam s.par e = true ∧ ∃ v : Nibble, t.ram = s.ram.write e.toNat (v.setWidth 8)

/-- What an instruction does where it completes: its row of the access matrix bounds what it writes outside memory, and
it stores at its store address alone (R29, R84). -/
theorem exec_writesWithin_ramAfter {i : Instr} {s t : State} (h : exec i s = .next t) :
    WritesWithin (writes i) s t ∧ RamAfter s t (storeAddr s i) := by
  cases i with
  | mov p => cases p <;> cases h <;> exact ⟨by constructor <;> simp [writes], rfl⟩
  | ldIdx r j | ldDir r d =>
    obtain ⟨v, u, hu, rfl⟩ := loadFrom_ok (andThen_pure_next.1 h)
    obtain ⟨n, rfl⟩ := memRead_frame hu
    exact ⟨by constructor <;> simp +contextual [writes, Writes.ofData], writeData_ram r v _⟩
  | stIdx r j | stDir r d =>
    obtain ⟨v, -, hi, rfl⟩ := storeTo_ok (andThen_pure_next.1 h)
    exact ⟨by constructor <;> simp, hi, v, rfl⟩
  | ldAuto r j dir =>
    obtain ⟨q, hq, hn⟩ := andThen_next.1 h
    obtain ⟨v, u, hu, rfl⟩ := loadFrom_ok hq
    obtain ⟨n, rfl⟩ := memRead_frame hu
    cases hn
    exact ⟨by constructor <;> simp +contextual [writes, Writes.ofData], by simp [RamAfter, storeAddr]⟩
  | stAuto r j dir =>
    obtain ⟨q, hq, hn⟩ := andThen_next.1 h
    obtain ⟨v, -, hi, rfl⟩ := storeTo_ok hq
    cases hn
    exact ⟨by constructor <;> simp +contextual [writes, Writes.ofIdx], hi, v, autoIdx_ram j dir _⟩
  | ldiA n => cases h; exact ⟨by constructor <;> simp [writes], rfl⟩
  | ldiR r n => cases r <;> cases h <;> exact ⟨by constructor <;> simp [writes], rfl⟩
  | ldiX j n => cases h; exact ⟨by constructor <;> simp +contextual [writes, Writes.ofIdx], writeIdx_ram j _ s⟩
  | add o | adc o | sbc o =>
    simp only [exec, execAdd, execAdc, execSbc] at h
    obtain ⟨v, n, rfl⟩ := arithmetic_next h
    exact ⟨by constructor <;> simp [writes], rfl⟩
  | andA m | orA m | xorA m =>
    obtain ⟨v, c, n, rfl⟩ := logic_next h
    exact ⟨by constructor <;> simp [writes], rfl⟩
  | incM m | decM m =>
    obtain ⟨v, hc, rfl⟩ := modifyCell_next h
    exact ⟨by constructor <;> simp [writes], hc.1, _, rfl⟩
  | bset n m | bclr n m =>
    simp only [exec, execBset, execBclr] at h
    obtain ⟨v, hc, rfl⟩ := rewriteCell_next h
    exact ⟨by constructor <;> simp, hc.1, _, rfl⟩
  | skeq r o | skne r o | sklt r o =>
    simp only [exec, execSkeq, execSkne, execSklt] at h
    obtain ⟨c, n, pc, rfl⟩ := compareSkip_next h
    exact ⟨by constructor <;> simp [writes], rfl⟩
  | btst n m =>
    obtain ⟨c, k, pc, rfl⟩ := execBtst_next h
    exact ⟨by constructor <;> simp [writes], rfl⟩
  | daa | das | br op | brl op w2 | nop | stby | stop | illegal op =>
    cases h
    exact ⟨by constructor <;> simp [writes], rfl⟩
  | brt op | latch k op =>
    obtain ⟨v, -, hn⟩ := andThen_next.1 h
    cases hn
    exact ⟨by constructor <;> simp [writes], rfl⟩
  | bnz =>
    obtain ⟨pc, rfl⟩ := execBnz_next h
    exact ⟨by constructor <;> simp [writes], rfl⟩
  | call op w2 =>
    rw [(execCall_next h).2]
    exact ⟨by constructor <;> simp [writes], rfl⟩
  | ret =>
    rw [returnTo_frame (andThen_pure_next.1 h)]
    exact ⟨by constructor <;> simp [writes], rfl⟩
  | reti =>
    obtain ⟨u, hu, rfl⟩ := map_ok_iff.1 (andThen_pure_next.1 h)
    rw [returnTo_frame hu]
    exact ⟨by constructor <;> simp [writes], rfl⟩

/-- Settles O55: the first half of what an instruction does. -/
theorem onlyNamedWritersWrite : Obligations.OnlyNamedWritersWrite := by
  intro i s t h
  obtain ⟨a, b, w, x, y, c, pc, stack, ie, run, event, inputs, budget⟩ := (exec_writesWithin_ramAfter h).1
  exact ⟨a, b, w, x, y, c, pc, stack, ie, run, event, inputs, budget⟩

/-! ## Data memory -/

/-- A cell away from the address stored to reads as before (R39). -/
theorem RamAfter.readCell_of_ne {s t : State} {o : Option DataAddr} (h : RamAfter s t o) {e : DataAddr}
    (he : o ≠ some e) : readCell t e = readCell s e := by
  cases o with
  | none => exact readCell_congr h e
  | some d =>
    obtain ⟨-, v, hv⟩ := h
    have hne : e ≠ d := fun hed => he (hed ▸ rfl)
    exact (readCell_congr hv e).trans ((storesCell_write s d v).2 e hne)

/-- A store keeps the data store's canonical form (R33, R34). -/
theorem RamAfter.wf {s t : State} {o : Option DataAddr} (h : RamAfter s t o) (hs : s.ram.wf = true) :
    t.ram.wf = true := by
  cases o with
  | none => exact (congrArg Memory.wf h).trans hs
  | some d =>
    obtain ⟨-, v, hv⟩ := h
    exact hv ▸ wf_ram_write hs d v

/-- Settles O56: the second half of what an instruction does. -/
theorem onlyStoredCellChanges : Obligations.OnlyStoredCellChanges := by
  intro i s t h
  have hram := (exec_writesWithin_ramAfter h).2
  exact ⟨fun hn => by rwa [hn] at hram, fun e he => hram.readCell_of_ne he⟩

/-! ## The interrupt enable -/

/-- `RETI` is the one writer of `IE` among the instructions (R22). -/
theorem writes_ie_iff (i : Instr) : (writes i).ie = true ↔ i = .reti := by
  cases i <;> simp [writes, Writes.ofData, Writes.ofIdx]

theorem haltedStep_ie (inp : HostInput) (s : State) : (haltedStep inp s).ie = s.ie := by
  unfold haltedStep
  split <;> rfl

/-- Settles O54: an idle step keeps `IE`, an acknowledge clears it, and of the instructions only `RETI` writes it. -/
theorem onlyRetiEnables : Obligations.OnlyRetiEnables := by
  intro s t h h0 h1
  rcases step_cases h with ⟨-, rfl⟩ | ⟨-, -, ha⟩ | ⟨hf, i, u, hi, hu, rfl⟩
  · simp [haltedStep_ie, h0] at h1
  · obtain ⟨_, _, _, -, rfl⟩ := ackStep_next ha
    simp at h1
  · refine ⟨hf, ?_⟩
    cases hw : (writes i).ie with
    | true => rwa [(writes_ie_iff i).1 hw] at hi
    | false =>
      have hie : u.ie = s.ie := (exec_writesWithin_ramAfter hu).1.ie hw
      simp [hie, h0] at h1

/-! ## The invariant -/

theorem idxInRange_writeIdx {s : State} (h : s.idxInRange) (i : IdxReg) {v : BitVec 10}
    (hv : v.toNat < 2 ^ s.par.idxW) : (writeIdx i v s).idxInRange := by
  cases i with
  | x => exact ⟨hv, h.2⟩
  | y => exact ⟨h.1, hv⟩

theorem idxInRange_autoIdx {s : State} (h : s.idxInRange) (i : IdxReg) (dir : Dir) : (autoIdx i dir s).idxInRange :=
  idxInRange_writeIdx h i (stepIdx_lt s.par dir _)

/-- The index registers stay in range where neither they nor `IDX_W` change. -/
theorem idxInRange_of_eq {s t : State} (h : s.idxInRange) (hx : t.x = s.x) (hy : t.y = s.y) (hp : t.par = s.par) :
    t.idxInRange := by
  rwa [State.idxInRange, hx, hy, hp]

/-- Every instruction keeps the index registers in range: an auto-index form steps one modulo `2^IDX_W`, `LDI` puts a
literal in one, and no other instruction writes one (R17, R90, R91, R94). -/
theorem exec_keeps_idxInRange {i : Instr} {s t : State} (h : exec i s = .next t) (hs : s.idxInRange) :
    t.idxInRange := by
  cases i with
  | ldAuto r j dir =>
    obtain ⟨q, hq, hn⟩ := andThen_next.1 h
    obtain ⟨v, u, hu, rfl⟩ := loadFrom_ok hq
    obtain ⟨n, rfl⟩ := memRead_frame hu
    cases hn
    refine idxInRange_autoIdx ?_ j dir
    exact idxInRange_of_eq hs (by simp) (by simp) (by simp)
  | stAuto r j dir =>
    obtain ⟨q, hq, hn⟩ := andThen_next.1 h
    obtain ⟨v, -, -, rfl⟩ := storeTo_ok hq
    cases hn
    refine idxInRange_autoIdx ?_ j dir
    exact idxInRange_of_eq hs rfl rfl rfl
  | ldiX j n => cases h; exact idxInRange_writeIdx hs j (literal_lt s.par n)
  | _ =>
    have hw := (exec_writesWithin_ramAfter h).1
    exact idxInRange_of_eq hs (hw.x rfl) (hw.y rfl) (exec_follows h).par

theorem exec_keeps_inv {i : Instr} {s t : State} (h : exec i s = .next t) (hs : s.Inv) : t.Inv := by
  obtain ⟨hram, hprog, hidx⟩ := hs
  exact ⟨(exec_writesWithin_ramAfter h).2.wf hram, (exec_follows h).prog ▸ hprog, exec_keeps_idxInRange h hidx⟩

theorem haltedStep_keeps_inv {s : State} (inp : HostInput) (hs : s.Inv) : (haltedStep inp s).Inv := by
  unfold haltedStep
  split <;> exact hs

theorem ackStep_keeps_inv {inp : HostInput} {s t : State} (h : ackStep inp s = .next t) (hs : s.Inv) : t.Inv := by
  obtain ⟨_, _, _, -, rfl⟩ := ackStep_next h
  exact hs

/-- Settles O51: each of the three kinds of step keeps the invariant (R75). Taking the inputs, the fetches and the cost
touch neither a store nor an index register. -/
theorem stepKeepsInv : Obligations.StepKeepsInv := by
  intro s t hs h
  rcases step_cases h with ⟨-, rfl⟩ | ⟨-, -, ha⟩ | ⟨-, i, u, -, hu, rfl⟩
  · exact haltedStep_keeps_inv (s := takeInput s) _ hs
  · exact ackStep_keeps_inv (s := takeInput s) ha hs
  · exact exec_keeps_inv (s := fetched s) (t := u) hu hs

end Sys2Proof.Machine
end

section
/-! Proofs about memory (20_memory.md): the program store's words as their bytes, what a placed word leaves, where a
load faults or draws, where a store may land, and the invariant at reset. -/

namespace Sys2Proof.Machine

/-! ## Words and their containers -/

/-- The word of a container, as a number: the container modulo 1024 (R42). -/
theorem wordOfBytes_toNat (lo hi : BitVec 8) : (wordOfBytes lo hi).toNat = (hi.toNat * 256 + lo.toNat) % 1024 := by
  have hlo := lo.isLt
  rw [wordOfBytes, BitVec.toNat_setWidth, BitVec.toNat_append, ← Nat.shiftLeft_add_eq_or_of_lt hlo, Nat.shiftLeft_eq]

/-- A word is what its container holds. -/
theorem wordOfBytes_low_high (w : OpWord) : wordOfBytes (lowByte w) (highByte w) = w := by
  have hw := w.isLt
  refine BitVec.eq_of_toNat_eq ?_
  simp only [wordOfBytes_toNat, lowByte, highByte, BitVec.toNat_setWidth, BitVec.toNat_ushiftRight,
    Nat.shiftRight_eq_div_pow]
  omega

/-- Settles O7: the two bytes of the container, read as one number. -/
theorem programReadMasksWord : Obligations.ProgramReadMasksWord :=
  fun _ _ => wordOfBytes_toNat _ _

/-! ## Placing bytes and words -/

theorem Memory.read_eq_none_of_lt {m : Memory} {a : Nat} (h : ∀ e ∈ m, a < e.1) : m.read a = none := by
  induction m with
  | nil => rfl
  | cons c m ih =>
    have hc : c.1 ≠ a := (h c List.mem_cons_self).ne'
    simp only [Memory.read, if_neg hc]
    exact ih fun e he => h e (List.mem_cons_of_mem c he)

/-- A read after an erase. The erase drops one entry, so the addresses must rise for the erased one to be unlisted. -/
theorem Memory.read_erase {m : Memory} (h : m.sorted = true) (a b : Nat) :
    (m.erase a).read b = if b = a then none else m.read b := by
  induction m with
  | nil => simp [Memory.erase]
  | cons c m ih =>
    obtain ⟨k, u⟩ := c
    obtain ⟨hk, hm⟩ := (Memory.sorted_cons k u m).1 h
    by_cases hka : k = a
    · subst hka
      rw [Memory.erase, if_pos rfl]
      by_cases hbk : b = k
      · rw [if_pos hbk, hbk, Memory.read_eq_none_of_lt hk]
      · rw [if_neg hbk, Memory.read, if_neg (Ne.symm hbk)]
    · rw [Memory.erase, if_neg hka, Memory.read, Memory.read, ih hm]
      by_cases hkb : k = b
      · rw [if_pos hkb, if_pos hkb, if_neg (hkb ▸ hka)]
      · rw [if_neg hkb, if_neg hkb]

theorem Memory.sorted_placeByte {m : Memory} (h : m.sorted = true) (a : Nat) (v : BitVec 8) :
    (placeByte m a v).sorted = true := by
  unfold placeByte
  split
  · exact Memory.sorted_erase h a
  · exact Memory.sorted_write h a v

/-- A byte read after a byte placed: placing 0 unlists the address, and an unlisted one reads as 0 (log 18). -/
theorem progByte_placeByte {m : Memory} (h : m.sorted = true) (a b : Nat) (v : BitVec 8) :
    progByte (placeByte m a v) b = if b = a then v else progByte m b := by
  by_cases hv : v = 0
  · rw [placeByte, if_pos hv, progByte, Memory.read_erase h, hv]
    split <;> rfl
  · rw [placeByte, if_neg hv, progByte, Memory.read_write]
    split <;> rfl

/-- The bytes of a store in which a word was placed: the word's two at its own address, every other as before. -/
theorem progByte_placeWord {m : Memory} (h : m.sorted = true) (a : ProgAddr) (w : OpWord) (b : Nat) :
    progByte (placeWord m a w) b =
      if b = 2 * a.toNat + 1 then highByte w else if b = 2 * a.toNat then lowByte w else progByte m b := by
  rw [placeWord, progByte_placeByte (Memory.sorted_placeByte h _ _), progByte_placeByte h]

/-- Settles O10: the two bytes of another word are at other byte addresses, and those of the placed word give it
back. -/
theorem placedWordIsRead : Obligations.PlacedWordIsRead := by
  intro m a b w h
  simp only [progRead, progByte_placeWord h]
  by_cases hba : b = a
  · subst hba
    simp [wordOfBytes_low_high]
  · have hne : b.toNat ≠ a.toNat := fun heq => hba (BitVec.eq_of_toNat_eq heq)
    rw [if_neg hba]
    simp (disch := omega) only [if_neg]

/-! ## Loads -/

theorem loadFrom_unused {s : State} {e : DataAddr} (h : unusedAddr s e) (r : DataReg) :
    loadFrom r e s = .ok (writeData r (Config.freeNibble s.draws) { s with draws := s.draws + 1 }) := by
  rw [loadFrom, memRead_unused h]; rfl

/-- A load faults as its `MemRead` does (R38). -/
theorem loadFrom_fault {s : State} {e : DataAddr} {f : Fault} (h : memRead s e = .error f) (r : DataReg) :
    loadFrom r e s = .error f := by
  rw [loadFrom, h]; rfl

/-- Both indexed loads end in the fault of the load itself; the index register is then not stepped (R86, R90). -/
theorem exec_ldIndexed_fault {r : DataReg} {i : IdxReg} {s : State} {f : Fault}
    (h : memRead s (eaIdx i s) = .error f) (dir : Dir) :
    exec (.ldIdx r i) s = .fault f ∧ exec (.ldAuto r i dir) s = .fault f := by
  simp [exec, execLdIdx, execLdAuto, loadFrom_fault h]

theorem exec_ldDir_fault {r : DataReg} {d : DataAddr} {s : State} {f : Fault} (h : memRead s d = .error f) :
    exec (.ldDir r d) s = .fault f := by
  simp [exec, execLdDir, loadFrom_fault h]

/-- Settles O14: each form loads the draw its `MemRead` answers, and an auto-index form then steps. -/
theorem loadUnusedIsDraw : Obligations.LoadUnusedIsDraw := by
  intro s r
  refine ⟨fun i h => ?_, fun d h => ?_, fun i dir h => ?_⟩
  · simp [exec, execLdIdx, loadFrom_unused h]
  · simp [exec, execLdDir, loadFrom_unused h]
  · simp [exec, execLdAuto, loadFrom_unused h]

/-- Settles O15: a load faults as its `MemRead` does, in the stack window or at an `undef` cell. -/
theorem loadFaults : Obligations.LoadFaults := by
  intro s r i dir d
  refine ⟨fun hd => ?_, fun hd hc => ?_, fun he => ?_, fun he hc => ?_⟩
  · exact exec_ldDir_fault (memRead_window hd)
  · exact exec_ldDir_fault (memRead_undef hd hc)
  · exact exec_ldIndexed_fault (memRead_window he) dir
  · exact exec_ldIndexed_fault (memRead_undef he hc) dir

/-! ## Stores -/

/-- Settles O57: the store address of an instruction that completes lies in a RAM region, and those lie below the stack
window. -/
theorem storesStayInRam : Obligations.StoresStayInRam := by
  intro i s t e h he
  have hram := (exec_writesWithin_ramAfter h).2
  rw [he] at hram
  obtain ⟨hin, -⟩ := hram
  exact ⟨hin, inRam_below hin⟩

/-! ## Reset -/

/-- Reset keeps the host's stores and starts both index registers at 0, in range of every `IDX_W` (R17, log 1). -/
theorem resetWith_inv (p : Params) {prog ram : Memory} (hprog : prog.progWf = true) (hram : ram.wf = true) :
    (State.resetWith p prog ram).Inv :=
  ⟨hram, hprog, Nat.two_pow_pos _, Nat.two_pow_pos _⟩

/-- Settles O50: the stores of `State.reset` are empty, so in canonical form. -/
theorem resetMeetsInv : Obligations.ResetMeetsInv :=
  ⟨resetWith_inv Params.p0 rfl rfl, fun p _ _ => resetWith_inv p⟩

end Sys2Proof.Machine
end

section
/-! Proofs about the encoding (30_encoding.md): what the tiers give an opcode, the two fixed encodings, what a decoded
instruction says of its words, the round trip of the encoder, and where a step is refused. -/

namespace Sys2Proof

/-! ## The fixed encodings (R62, R63) -/

/-- The opcodes of `LDI A,#i` differ in their last four bits alone. -/
theorem ldiA_opcode_masked (n : Nibble) : (0x230#10 ||| n.setWidth 10) &&& 0x3F0#10 = 0x230#10 := by
  revert n; decide

theorem literal_ldiA_opcode (n : Nibble) : literal (0x230#10 ||| n.setWidth 10) = n := by
  revert n; decide

theorem ldiA_opcode_toNat (n : Nibble) : (0x230#10 ||| n.setWidth 10).toNat = 0x230 + n.toNat := by
  revert n; decide

theorem isFixedOp_ldiA_opcode (n : Nibble) : isFixedOp (0x230#10 ||| n.setWidth 10) = true := by
  rw [isFixedOp, ldiA_opcode_masked]; rfl

theorem wordCount_fixed {p : Params} {op : OpWord} (h : isFixedOp op = true) : wordCount p op = 1 := by
  simp [wordCount, tw_fixed h]

theorem decode_ldiA_opcode (p : Params) (n : Nibble) (w2 : OpWord) :
    decode p (0x230#10 ||| n.setWidth 10) w2 = .ok (.ldiA n) := by
  have hd : dispatch p.decodeMap (0x230#10 ||| n.setWidth 10) = .ldiA := by simp [dispatch, ldiA_opcode_masked]
  simp only [decode, hd, literal_ldiA_opcode]

theorem decode_bnz_opcode (p : Params) (w2 : OpWord) : decode p 0x244#10 w2 = .ok .bnz := rfl

/-- Settles O1: both opcodes are dispatched before any row is tried, and are one word. -/
theorem fixedEncodingsDecode : Obligations.FixedEncodingsDecode :=
  fun p n w2 => ⟨decode_ldiA_opcode p n w2, decode_bnz_opcode p w2, wordCount_fixed (isFixedOp_ldiA_opcode n),
    wordCount_fixed rfl⟩

/-! ## The words of one instruction (R54, R55) -/

section Words

variable {p : Params} {op w2 : OpWord} {i : Instr}

/-- At a one-word opcode the word after it is not looked at (R55). -/
theorem decode_of_one (ht : tw p op = false) (w w' : OpWord) : decode p op w = decode p op w' := by
  simp [decode, ht]

theorem decodeWords_one (ht : tw p op = false) (h : decode p op w2 = .ok i) (rest : List OpWord) :
    decodeWords p (op :: rest) = .ok (i, rest) := by
  have h0 : decode p op 0#10 = .ok i := (decode_of_one ht 0 w2).trans h
  simp [decodeWords, ht, h0, Except.map]

theorem decodeWords_two (ht : tw p op = true) (h : decode p op w2 = .ok i) (rest : List OpWord) :
    decodeWords p (op :: w2 :: rest) = .ok (i, rest) := by
  simp [decodeWords, ht, h, Except.map]

end Words

/-! ## The host's question -/

theorem wordsOfBytes_bytesOfWords (ws : List OpWord) : wordsOfBytes (bytesOfWords ws) = ws := by
  induction ws with
  | nil => rfl
  | cons w ws ih => simp [bytesOfWords, wordsOfBytes, Machine.wordOfBytes_low_high, ih]

/-- The words of a one-word opcode, as the table writes them, begin with it. -/
theorem wordsOfTable_opcode (op : OpWord) : ∃ w2, wordsOfTable 16 op.toNat = [op, w2] := by
  have hop := op.isLt
  have hmod : op.toNat % 2 ^ 16 = op.toNat := Nat.mod_eq_of_lt (by omega)
  exact ⟨_, by rw [wordsOfTable, hmod, BitVec.ofNat_toNat, BitVec.setWidth_eq]⟩

/-- A fixed opcode decodes, through the host's question, as by itself under the reset state's parameters. -/
theorem decodeTableWord_of_decode {op : OpWord} {i : Instr} (hf : isFixedOp op = true)
    (hd : decode Params.p0 op 0 = .ok i) : decodeTableWord 16 op.toNat = some i := by
  obtain ⟨w2, hw⟩ := wordsOfTable_opcode op
  simp only [decodeTableWord, decodeBytes, wordsOfBytes_bytesOfWords, hw, decodeWords_one (tw_fixed hf) hd]

theorem decodeTableWord_ldiA (n : Nibble) : decodeTableWord 16 (0x230 + n.toNat) = some (.ldiA n) :=
  ldiA_opcode_toNat n ▸ decodeTableWord_of_decode (isFixedOp_ldiA_opcode n) (decode_ldiA_opcode _ n 0)

/-- Settles O2: four of the fixed opcodes. -/
theorem writtenWordsDecode : Obligations.WrittenWordsDecode :=
  ⟨decodeTableWord_ldiA 0, decodeTableWord_ldiA 15, decodeTableWord_ldiA 5,
    decodeTableWord_of_decode (op := 0x244) rfl (decode_bnz_opcode _ 0)⟩

/-! ## The tiers (R61, R66) -/

section Tiers

variable {m : DecodeMap} {op : OpWord}

theorem MaskRow.claims_iff {r : MaskRow} : r.claims op = true ↔ op &&& r.mask = r.pattern :=
  beq_iff_eq

theorem find?_claims_eq_none {t : List MaskRow} (h : ∀ q ∈ t, op &&& q.mask ≠ q.pattern) :
    t.find? (fun r => r.claims op) = none :=
  List.find?_eq_none.2 fun q hq hc => h q hq (MaskRow.claims_iff.1 hc)

/-- The first claiming row of a masked tier is the one found. -/
theorem find?_claims_eq_some {t pre post : List MaskRow} {r : MaskRow} (ht : t = pre ++ r :: post)
    (hpre : ∀ q ∈ pre, op &&& q.mask ≠ q.pattern) (hr : op &&& r.mask = r.pattern) :
    t.find? (fun r => r.claims op) = some r := by
  rw [ht, List.find?_append, find?_claims_eq_none hpre, Option.none_or]
  exact List.find?_cons_of_pos (MaskRow.claims_iff.2 hr)

/-- The first claiming row of the exact tier is the one found. -/
theorem find?_exact_eq_some {t pre post : List ExactRow} {r : ExactRow} (ht : t = pre ++ r :: post)
    (hpre : ∀ q ∈ pre, q.op ≠ op) (hr : r.op = op) : t.find? (fun r => r.op == op) = some r := by
  have hnone : pre.find? (fun r => r.op == op) = none :=
    List.find?_eq_none.2 fun q hq hc => hpre q hq (beq_iff_eq.1 hc)
  rw [ht, List.find?_append, hnone, Option.none_or]
  exact List.find?_cons_of_pos (beq_iff_eq.2 hr)

theorem handlerAt_of_tier1 {r : MaskRow} (h1 : m.tier1.find? (fun r => r.claims op) = some r) :
    handlerAt m op = r.handler := by
  simp [handlerAt, h1]

theorem handlerAt_of_tier2 {r : MaskRow} (h1 : m.tier1.find? (fun r => r.claims op) = none)
    (h2 : m.tier2.find? (fun r => r.claims op) = some r) : handlerAt m op = r.handler := by
  simp [handlerAt, h1, h2]

theorem handlerAt_of_tier3 {r : ExactRow} (h1 : m.tier1.find? (fun r => r.claims op) = none)
    (h2 : m.tier2.find? (fun r => r.claims op) = none) (h3 : m.tier3.find? (fun r => r.op == op) = some r) :
    handlerAt m op = r.handler := by
  simp [handlerAt, h1, h2, h3]

theorem handlerAt_of_none (h1 : m.tier1.find? (fun r => r.claims op) = none)
    (h2 : m.tier2.find? (fun r => r.claims op) = none) (h3 : m.tier3.find? (fun r => r.op == op) = none) :
    handlerAt m op = .illegal := by
  simp [handlerAt, h1, h2, h3]

end Tiers

/-- Settles O3: in each tier the row found is the first that claims the opcode, and an earlier tier finds none. -/
theorem earlierTierWins : Obligations.EarlierTierWins := by
  intro m op
  refine ⟨fun pre r post ht hpre hr => ?_, fun pre r post ht hpre hr => ?_, fun pre r post ht hmask hpre hr => ?_⟩
  · exact handlerAt_of_tier1 (find?_claims_eq_some ht hpre hr)
  · obtain ⟨htier1, hpre⟩ := List.forall_mem_append.1 hpre
    exact handlerAt_of_tier2 (find?_claims_eq_none htier1) (find?_claims_eq_some ht hpre hr)
  · obtain ⟨htier1, htier2⟩ := List.forall_mem_append.1 hmask
    exact handlerAt_of_tier3 (find?_claims_eq_none htier1) (find?_claims_eq_none htier2)
      (find?_exact_eq_some ht hpre hr)

/-! ## What the decoder answers away from the fixed opcodes -/

theorem dispatch_of_not_fixed {m : DecodeMap} {op : OpWord} (hf : isFixedOp op = false) :
    dispatch m op = .row (handlerAt m op) := by
  rcases dispatch_cases m op with ⟨ht, -⟩ | ⟨ht, -⟩ | ⟨-, hd⟩
  · simp [hf] at ht
  · simp [hf] at ht
  · exact hd

/-- A row's handler that obeys the length rule is decoded to what it stands for (R60, R65). -/
theorem decode_row {p : Params} {op : OpWord} {h : Handler} (hd : dispatch p.decodeMap op = .row h)
    (hl : h.lengthOk (tw p op) = true) (w2 : OpWord) :
    decode p op w2 = .ok (h.toInstr op (if tw p op then w2 else 0)) := by
  simp [decode, hd, hl]

/-- Settles O4: an unclaimed opcode has the handler `ILLEGAL`, which may have either length. -/
theorem unassignedOpcodeDecodesIllegal : Obligations.UnassignedOpcodeDecodesIllegal := by
  intro p op w2 hf h1 h2 h3
  have hh : handlerAt p.decodeMap op = .illegal :=
    handlerAt_of_none (List.find?_eq_none.2 (List.any_eq_false.1 h1)) (List.find?_eq_none.2 (List.any_eq_false.1 h2))
      (List.find?_eq_none.2 (List.any_eq_false.1 h3))
  exact decode_row ((dispatch_of_not_fixed hf).trans (congrArg _ hh)) rfl w2

/-! ## The second word (R55, R57, R58, R65) -/

theorem MemMode.operand_secondWord {m : MemMode} (h : m.needsSecond = true) (w2 : OpWord) :
    (m.operand w2).secondWord = w2 := by
  cases m with
  | idx i => cases h
  | direct => rfl

theorem SrcMode.operand_secondWord {o : SrcMode} (h : o.needsSecond = true) (op w2 : OpWord) :
    (o.operand op w2).secondWord = w2 := by
  cases o with
  | imm => cases h
  | mem m => exact MemMode.operand_secondWord h w2

theorem MemMode.operand_zero_secondWord (m : MemMode) : (m.operand 0).secondWord = 0 := by
  cases m <;> rfl

theorem SrcMode.operand_zero_secondWord (o : SrcMode) (op : OpWord) : (o.operand op 0).secondWord = 0 := by
  cases o with
  | imm => rfl
  | mem m => exact MemMode.operand_zero_secondWord m

/-- A handler whose length is that of its operand stands at a two-word opcode only where the operand is two words. -/
theorem Handler.needsSecond_of_two {h : Handler} {b : Bool} (hlen : h.length = .ofNeeds b)
    (hl : h.lengthOk true = true) : b = true := by
  cases b with
  | true => rfl
  | false => simp [Handler.lengthOk, hlen, Length.ofNeeds] at hl

/-- At a two-word opcode every instruction but `ILLEGAL` keeps the second word. -/
theorem Handler.toInstr_secondWord {h : Handler} (hl : h.lengthOk true = true) (hne : h ≠ .illegal) (op w2 : OpWord) :
    (h.toInstr op w2).secondWord = w2 := by
  cases h with
  | illegal => exact absurd rfl hne
  | ldDir r | stDir r | brl | call => rfl
  | add o | adc o | sbc o | skeq r o | skne r o | sklt r o =>
    exact SrcMode.operand_secondWord (Handler.needsSecond_of_two rfl hl) op w2
  | incM m | decM m | andA m | orA m | xorA m | bset n m | bclr n m | btst n m =>
    exact MemMode.operand_secondWord (Handler.needsSecond_of_two rfl hl) w2
  | _ => cases hl

theorem Handler.toInstr_zero_secondWord (h : Handler) (op : OpWord) : (h.toInstr op 0).secondWord = 0 := by
  cases h with
  | add o | adc o | sbc o | skeq r o | skne r o | sklt r o => exact SrcMode.operand_zero_secondWord o op
  | incM m | decM m | andA m | orA m | xorA m | bset n m | bclr n m | btst n m =>
    exact MemMode.operand_zero_secondWord m
  | _ => rfl

/-! ## What a decoded instruction says (R55, R57-R60, R65) -/

/-- What a handler stands for at an opcode of its length is well-formed: only the control transfers, the latch and
`ILLEGAL` keep a word that could be wrong. -/
theorem Handler.toInstr_wf {p : Params} {op : OpWord} {h : Handler} (hf : isFixedOp op = false)
    (hl : h.lengthOk (tw p op) = true) (w2 : OpWord) : (h.toInstr op (if tw p op then w2 else 0)).wf p = true := by
  cases h with
  | br | brt | latch k => simpa [Handler.toInstr, Instr.wf, hf, Handler.lengthOk, Handler.length] using hl
  | brl => exact hl
  | call => cases ht : tw p op <;> simp [Handler.toInstr, Instr.wf, hf, ht]
  | illegal => simp [Handler.toInstr, Instr.wf, hf]
  | _ => rfl

section Decoded

variable {p : Params} {op w2 : OpWord} {i : Instr}

theorem decode_wf (h : decode p op w2 = .ok i) : i.wf p = true := by
  rcases decode_ok h with ⟨-, -, rfl⟩ | ⟨-, -, rfl⟩ | ⟨hd, hf, -, hl, rfl⟩
  · rfl
  · rfl
  · exact Handler.toInstr_wf hf hl w2

theorem decode_schema (h : decode p op w2 = .ok i) : i.schema = dispatch p.decodeMap op := by
  rcases decode_ok h with ⟨-, hd, rfl⟩ | ⟨-, hd, rfl⟩ | ⟨hd, -, hrow, -, rfl⟩
  · exact hd.symm
  · exact hd.symm
  · rw [Handler.toInstr_schema, hrow]

theorem decode_literal (h : decode p op w2 = .ok i) {n : Nibble} (hn : i.literal = some n) :
    n = Sys2Proof.literal op := by
  rcases decode_ok h with ⟨-, -, rfl⟩ | ⟨-, -, rfl⟩ | ⟨hd, -, -, -, rfl⟩
  · exact (Option.some.inj hn).symm
  · cases hn
  · exact Handler.toInstr_literal hn

theorem decode_opcodeWord (h : decode p op w2 = .ok i) {o : OpWord} (ho : i.opcodeWord = some o) : o = op := by
  rcases decode_ok h with ⟨-, -, rfl⟩ | ⟨-, -, rfl⟩ | ⟨hd, -, -, -, rfl⟩
  · cases ho
  · cases ho
  · exact Handler.toInstr_opcodeWord ho

theorem decode_secondWord_of_two (h : decode p op w2 = .ok i) (ht : tw p op = true) (hne : i ≠ .illegal op) :
    i.secondWord = w2 := by
  rcases decode_ok h with ⟨hf, -⟩ | ⟨hf, -⟩ | ⟨hd, -, -, hl, rfl⟩
  · simp [tw_fixed hf] at ht
  · simp [tw_fixed hf] at ht
  · rw [ht] at hl hne ⊢
    exact Handler.toInstr_secondWord hl (fun he => hne (by rw [he]; rfl)) op w2

theorem decode_secondWord_of_one (h : decode p op w2 = .ok i) (ht : tw p op = false) : i.secondWord = 0 := by
  rcases decode_ok h with ⟨-, -, rfl⟩ | ⟨-, -, rfl⟩ | ⟨hd, -, -, -, rfl⟩
  · rfl
  · rfl
  · rw [ht]
    exact hd.toInstr_zero_secondWord op

/-- An instruction is decoded from its own second word wherever some second word gives it: `ILLEGAL`, which keeps
none, is decoded from any. -/
theorem decode_secondWord (h : decode p op w2 = .ok i) : decode p op i.secondWord = .ok i := by
  by_cases ht : tw p op = true
  · by_cases hi : i = .illegal op
    · subst hi
      exact decode_row (decode_schema h).symm rfl _
    · rwa [decode_secondWord_of_two h ht hi]
  · rwa [decode_of_one (Bool.eq_false_of_not_eq_true ht) _ w2]

end Decoded

/-- Settles O5: part by part. -/
theorem decodedIsWellFormed : Obligations.DecodedIsWellFormed := by
  intro p op w2
  refine ⟨fun i h => ⟨decode_wf h, decode_schema h, fun n hn => ?_, fun o ho => decode_opcodeWord h ho,
    decode_secondWord_of_two h, decode_secondWord_of_one h⟩, dispatch_of_not_fixed, fun hf hl => ?_⟩
  · rw [decode_literal h hn, literal, BitVec.ofNat_toNat]
  · exact ⟨_, decode_row (dispatch_of_not_fixed hf) hl w2⟩

/-! ## The encoder -/

section Encoder

variable {p : Params} {op w2 : OpWord} {i : Instr}

theorem selects_iff : selects p i op = true ↔ decode p op i.secondWord = .ok i := by
  unfold selects
  cases decode p op i.secondWord <;> simp

theorem decode_fixedOpcode (h : fixedOpcode i = some op) (p : Params) (w2 : OpWord) : decode p op w2 = .ok i := by
  cases i with
  | ldiA n => cases h; exact decode_ldiA_opcode p n w2
  | bnz => cases h; exact decode_bnz_opcode p w2
  | _ => cases h

theorem opcodeOf_of_fixed (h : fixedOpcode i = some op) : opcodeOf p i = some op := by
  simp [opcodeOf, h]

theorem opcodeOf_of_not_fixed (h : fixedOpcode i = none) : opcodeOf p i = allOps.find? (selects p i) := by
  simp [opcodeOf, h]

/-- The opcode word the encoder finds decodes, with the instruction's second word, to the instruction. -/
theorem decode_opcodeOf (h : opcodeOf p i = some op) : decode p op i.secondWord = .ok i := by
  cases hfix : fixedOpcode i with
  | some o =>
    cases (opcodeOf_of_fixed hfix).symm.trans h
    exact decode_fixedOpcode hfix p _
  | none => exact selects_iff.1 (List.find?_some ((opcodeOf_of_not_fixed hfix).symm.trans h))

/-- The encoder finds an opcode word wherever one decodes to the instruction: it looks through all of them. -/
theorem opcodeOf_of_decode (h : decode p op w2 = .ok i) : ∃ op', opcodeOf p i = some op' := by
  cases hfix : fixedOpcode i with
  | some o => exact ⟨o, opcodeOf_of_fixed hfix⟩
  | none =>
    rw [opcodeOf_of_not_fixed hfix]
    exact Option.isSome_iff_exists.1
      (List.find?_isSome.2 ⟨op, mem_allOps op, selects_iff.2 (decode_secondWord h)⟩)

theorem encode_eq_some {ws : List OpWord} : encode p i = some ws ↔
    ∃ op, opcodeOf p i = some op ∧ (if tw p op then [op, i.secondWord] else [op]) = ws :=
  Option.map_eq_some_iff

/-- The words of an opcode and a second word decode as the pair does, with the words after them left over. -/
theorem decodeWords_append (h : decode p op w2 = .ok i) (rest : List OpWord) :
    decodeWords p ((if tw p op then [op, w2] else [op]) ++ rest) = .ok (i, rest) := by
  cases ht : tw p op with
  | true => exact decodeWords_two ht h rest
  | false => exact decodeWords_one ht h rest

end Encoder

/-- Settles O6: the opcode the encoder finds decodes to the instruction, with the second word the instruction keeps. -/
theorem encodeDecodeRoundTrip : Obligations.EncodeDecodeRoundTrip := by
  intro p i
  refine ⟨⟨fun ⟨op, w2, h⟩ => ?_, fun ⟨ws, h⟩ => ?_⟩, fun ws rest h => ?_⟩
  · obtain ⟨op', hop⟩ := opcodeOf_of_decode h
    exact ⟨_, encode_eq_some.2 ⟨op', hop, rfl⟩⟩
  · obtain ⟨op, hop, -⟩ := encode_eq_some.1 h
    exact ⟨op, i.secondWord, decode_opcodeOf hop⟩
  · obtain ⟨op, hop, rfl⟩ := encode_eq_some.1 h
    exact decodeWords_append (decode_opcodeOf hop) rest

end Sys2Proof

namespace Sys2Proof.Machine

/-! ## Refusals -/

theorem andThen_ne_refused {α : Type} {r : Except Fault α} {k : α → Result} {q : Refusal}
    (hk : ∀ v, k v ≠ .refused q) : andThen r k ≠ .refused q := fun h => by
  obtain ⟨v, -, hv⟩ := andThen_refused.1 h
  exact hk v hv

/-- An operation that can only fault, then a next state: the shape of most meanings. -/
theorem andThen_next_ne_refused {α : Type} {r : Except Fault α} {f : α → State} {q : Refusal} :
    andThen r (fun v => .next (f v)) ≠ .refused q :=
  andThen_ne_refused fun _ => nofun

/-- Settles O59: every meaning ends in a next state or in the fault of an operation it is made of. -/
theorem execNeverRefuses : Obligations.ExecNeverRefuses := by
  intro i s r
  cases i with
  | mov p => cases p <;> exact nofun
  | ldiR reg n => cases reg <;> exact nofun
  | incM m | decM m | bset n m | bclr n m => exact andThen_ne_refused fun _ => andThen_next_ne_refused
  | bnz =>
    simp only [exec, execBnz]
    split <;> exact nofun
  | ldiA n | ldiX j n | daa | das | br op | brl op w2 | nop | stby | stop | illegal op => exact nofun
  | _ => exact andThen_next_ne_refused

/-- Settles O45: the decoder's error is the refusal of the fetching step. -/
theorem stepRefusesBrokenDecode : Obligations.StepRefusesBrokenDecode := by
  intro s e hf he
  rw [step_fetches hf, he]

end Sys2Proof.Machine
end

section
/-! Proofs about the execution cycle (40_execution_cycle.md): the fetch and the skip, what a source operand reads, the
pushes of `CALL` and the pops of `RET`, and what a step does and costs where it fetches and where it is Halted. -/

namespace Sys2Proof.Machine

/-! ## Fetch and skip (R71, R77) -/

/-- `PC` advances modulo the 16384 words of the program space (R19). -/
theorem progAddr_add_ofNat_toNat (a : ProgAddr) (n : Nat) :
    (a + BitVec.ofNat 14 n).toNat = (a.toNat + n) % 16384 := by
  rw [BitVec.toNat_add, BitVec.toNat_ofNat, Nat.add_mod_mod]

/-- Settles O8: a fetch is the word at `PC` with `PC` one further. -/
theorem fetchReadsAndAdvances : Obligations.FetchReadsAndAdvances :=
  fun s => ⟨rfl, rfl, progAddr_add_ofNat_toNat s.pc 1⟩

/-- Settles O9: a skip adds the number of words of the instruction at `PC`. -/
theorem skipPassesWholeInstruction : Obligations.SkipPassesWholeInstruction :=
  fun s => ⟨rfl, progAddr_add_ofNat_toNat s.pc (wordCount s.par (progRead s.prog s.pc))⟩

/-! ## Source operands (R74) -/

/-- A memory operand is read by `MemRead` at its address (R40, R74). -/
theorem readSrc_mem (m : MemOp) (s : State) : readSrc (.mem m) s = memRead s (ea m s) := rfl

/-- Settles O11: an immediate is itself, and a memory operand answers as `MemRead` does at each kind of address. -/
theorem sourceOperandReads : Obligations.SourceOperandReads := by
  intro s m n
  rw [readSrc_mem]
  exact ⟨rfl, fun _ => memRead_of_cellHolds, memRead_undef, memRead_window, memRead_unused⟩

/-! ## The return stack (R78, R79) -/

/-- `CALL` answers wherever its push does (R78, R115). -/
theorem execCall_of_pushOk {s : State} (h : pushOk s) (op w2 : OpWord) : ∃ t, execCall op w2 s = .next t := by
  obtain ⟨u, hu⟩ := push_of_pushOk s.pc h
  exact ⟨_, andThen_next.2 ⟨u, hu, rfl⟩⟩

/-- Settles O37: `CALL` completes and faults as its push does; what it leaves is what `execCall_next` says. -/
theorem callPushesAndJumps : Obligations.CallPushesAndJumps := by
  intro op w2 s
  refine ⟨fun h => ?_, fun hfull hp => ?_⟩
  · obtain ⟨t, ht⟩ := execCall_of_pushOk h op w2
    exact ⟨t, ht, execCall_next ht⟩
  · simp only [exec, execCall, push_overflow s.pc hfull hp, andThen_error]

theorem returnTo_entry {s : State} (j : Fin 64) (h : j.val + 1 = s.sp.val) :
    returnTo s = .ok { s with pc := s.stk[j], sp := j.castSucc } := by
  rw [returnTo, pop_entry j h]; rfl

/-- A return on an empty stack is a no-op under `saturate` (R79). -/
theorem returnTo_empty {s : State} (h : s.sp = 0) (hp : s.par.stackPolicy = .saturate) : returnTo s = .ok s := by
  rw [returnTo, pop_empty h hp]; rfl

theorem returnTo_underflow {s : State} (h : s.sp = 0) (hp : s.par.stackPolicy = .refuse) :
    returnTo s = .error .stackUnderflow := by
  rw [returnTo, pop_underflow h hp]; rfl

/-- `RET` is the return alone (R116). -/
theorem exec_ret (s : State) : exec .ret s = andThen (returnTo s) .next := rfl

/-- Settles O38: the three answers of a return, by the stack and the policy. -/
theorem returnPops : Obligations.ReturnPops := by
  intro s
  refine ⟨fun j h => ?_, fun h hp => ?_, fun h hp => ?_⟩
  · rw [exec_ret, returnTo_entry j h, andThen_ok]
  · rw [exec_ret, returnTo_empty h hp, andThen_ok]
  · rw [exec_ret, returnTo_underflow h hp, andThen_error]

/-! ## Halted (R75, R133, R140) -/

/-- Settles O47: a Halted step is `haltedStep` from the state with its inputs taken; only `WAKE` makes a difference. -/
theorem haltedStepIdlesOrWakes : Obligations.HaltedStepIdlesOrWakes := by
  intro s hr
  rw [step_halted hr, haltedStep]
  refine ⟨fun hw => ?_, fun hw => ?_⟩
  · rw [hw]; rfl
  · rw [hw]; rfl

/-! ## The fetching step and its cost (R72, R80) -/

/-- Settles O43: a fetching step dispatches what the words at `PC` decode to. -/
theorem stepRunsDecoded : Obligations.StepRunsDecoded := by
  intro s i hf hi
  rw [step_fetches hf, hi]

/-- A step that fetches and completes ran the decoded instruction to its end and paid for it (R72, R80). -/
theorem step_next_of_fetchesNext {s t : State} (hf : fetchesNext s) (h : step s = .next t) :
    ∃ i u, nextInstr s = .ok i ∧ exec i (fetched s) = .next u ∧ t = charge (stepCost s) u := by
  rcases step_cases h with ⟨hr, -⟩ | ⟨-, hd, -⟩ | ⟨-, hrun⟩
  · exact absurd (hf.1.symm.trans hr) nofun
  · exact absurd (hf.2.symm.trans hd) nofun
  · exact hrun

theorem wordCount_pos (p : Params) (op : OpWord) : 0 < wordCount p op := by
  unfold wordCount; split <;> omega

/-- `NOP` and `ILLEGAL` of either length cost COST(NOP, 1) (R118, R122). -/
theorem cost_nop (p : Params) (n : Nat) : cost p (.row .nop) n = nopCost p := rfl

theorem cost_illegal (p : Params) (n : Nat) : cost p (.row .illegal) n = nopCost p := rfl

theorem cost_other {p : Params} {d : Dispatched} (hn : d ≠ .row .nop) (hi : d ≠ .row .illegal) (n : Nat) :
    cost p d n = n + Config.costAboveFetch d n := by
  simp [cost, hn, hi]

theorem one_le_nopCost (p : Params) : 1 ≤ nopCost p := by
  unfold nopCost; split <;> omega

/-- Where some two-word opcode is `ILLEGAL`, `NOP` costs at least its two fetches (log 15). -/
theorem two_le_nopCost {p : Params} (h : p.twoWordIllegal = true) : 2 ≤ nopCost p := by
  rw [nopCost, if_pos h]; omega

/-- An `ILLEGAL` opcode of either length is paid for by COST(NOP, 1) (R122). -/
theorem wordCount_le_nopCost {p : Params} {op : OpWord} (hd : dispatch p.decodeMap op = .row .illegal) :
    wordCount p op ≤ nopCost p := by
  unfold wordCount
  split
  · exact two_le_nopCost (twoWordIllegal_of ‹_› hd)
  · exact one_le_nopCost p

/-- The decoder gives `NOP` at one-word opcodes alone (R65, R118). -/
theorem wordCount_of_nop {p : Params} {op w2 : OpWord} {i : Instr} (h : decode p op w2 = .ok i)
    (hd : dispatch p.decodeMap op = .row .nop) : wordCount p op = 1 := by
  rcases decode_ok h with ⟨-, hd', -⟩ | ⟨-, hd', -⟩ | ⟨hdl, -, hd', hlen, -⟩
  · exact absurd (hd.symm.trans hd') nofun
  · exact absurd (hd.symm.trans hd') nofun
  · obtain rfl : Handler.nop = hdl := Dispatched.row.inj (hd.symm.trans hd')
    have htw : tw p op = false := by simpa [Handler.lengthOk, Handler.length] using hlen
    simp [wordCount, htw]

/-- An admitted instruction costs at least the cycles of its fetches (R80). -/
theorem wordCount_le_cost {p : Params} {op w2 : OpWord} {i : Instr} (h : decode p op w2 = .ok i) :
    wordCount p op ≤ cost p (dispatch p.decodeMap op) (wordCount p op) := by
  by_cases hn : dispatch p.decodeMap op = .row .nop
  · rw [hn, cost_nop, wordCount_of_nop h hn]
    exact one_le_nopCost p
  by_cases hi : dispatch p.decodeMap op = .row .illegal
  · rw [hi, cost_illegal]
    exact wordCount_le_nopCost hi
  · rw [cost_other hn hi]
    omega

/-- A completing fetching step takes exactly its cost from the budget: no instruction spends any itself (R80, R81). -/
theorem step_budget {s t : State} (hf : fetchesNext s) (h : step s = .next t) : t.budget = s.budget - stepCost s := by
  obtain ⟨i, u, -, hu, rfl⟩ := step_next_of_fetchesNext hf h
  have hbudget : u.budget = (fetched s).budget := (exec_writesWithin_ramAfter hu).1.budget
  rw [charge_budget, hbudget]
  rfl

/-- The next instruction costs at least one cycle (R80). -/
theorem stepCost_pos {s : State} {i : Instr} (h : nextInstr s = .ok i) : 0 < stepCost s :=
  (wordCount_pos _ _).trans_le (wordCount_le_cost h)

/-- Settles O48: a cost is at least the words fetched, so at least 1, and the step takes it from the budget. -/
theorem fetchingStepSpendsBudget : Obligations.FetchingStepSpendsBudget := by
  refine ⟨fun p op w2 i h => wordCount_le_cost h, fun p n => ?_, fun s t hf h => ?_⟩
  · rw [cost_illegal, cost_nop]
  · obtain ⟨i, -, hi, -⟩ := step_next_of_fetchesNext hf h
    have hpos := stepCost_pos hi
    have hbudget := step_budget hf h
    exact ⟨hbudget, by omega⟩

end Sys2Proof.Machine
end

section
/-! Proofs about the Load/Move family (41_load_move.md): the moves, what a load from a RAM cell and a store to one
leave, and the post-modify of the auto-index forms. -/

namespace Sys2Proof.Machine

/-! ## Moves (R85) -/

/-- Settles O12: `A` and `B` answer a read, `W` does not (R16). -/
theorem movCopiesRegister : Obligations.MovCopiesRegister :=
  fun _ => ⟨rfl, rfl, rfl, rfl⟩

/-! ## The index step (R17) -/

@[simp] theorem readIdx_writeData (i : IdxReg) (r : DataReg) (v : Nibble) (s : State) :
    readIdx i (writeData r v s) = readIdx i s := by
  cases r <;> rfl

/-- The step after a load starts from the index register as it was before the load. -/
theorem autoIdx_writeData (i : IdxReg) (dir : Dir) (r : DataReg) (v : Nibble) (s : State) :
    autoIdx i dir (writeData r v s) = writeIdx i (stepIdx s.par dir (readIdx i s)) (writeData r v s) := by
  rw [autoIdx, readIdx_writeData, writeData_par]

/-! ## Loads from a RAM cell (R86, R87, R90) -/

theorem loadFrom_of_cellHolds {s : State} {e : DataAddr} {v : Nibble} (h : cellHolds s e v) (r : DataReg) :
    loadFrom r e s = .ok (writeData r v s) := by
  rw [loadFrom, memRead_of_cellHolds h]; rfl

theorem exec_ldIdx_of_cellHolds {s : State} {i : IdxReg} {v : Nibble} (h : cellHolds s (eaIdx i s) v) (r : DataReg) :
    exec (.ldIdx r i) s = .next (writeData r v s) := by
  simp [exec, execLdIdx, loadFrom_of_cellHolds h]

theorem exec_ldDir_of_cellHolds {s : State} {d : DataAddr} {v : Nibble} (h : cellHolds s d v) (r : DataReg) :
    exec (.ldDir r d) s = .next (writeData r v s) := by
  simp [exec, execLdDir, loadFrom_of_cellHolds h]

theorem exec_ldAuto_of_cellHolds {s : State} {i : IdxReg} {v : Nibble} (h : cellHolds s (eaIdx i s) v) (r : DataReg)
    (dir : Dir) :
    exec (.ldAuto r i dir) s = .next (writeIdx i (stepIdx s.par dir (readIdx i s)) (writeData r v s)) := by
  simp [exec, execLdAuto, loadFrom_of_cellHolds h, autoIdx_writeData]

/-- Settles O13: both forms write the cell's value to the register they name. -/
theorem loadReadsCell : Obligations.LoadReadsCell :=
  fun _ _ =>
    ⟨fun _ h => ⟨exec_ldIdx_of_cellHolds h .a, exec_ldIdx_of_cellHolds h .b, exec_ldIdx_of_cellHolds h .w⟩,
      fun _ h => ⟨exec_ldDir_of_cellHolds h .a, exec_ldDir_of_cellHolds h .b, exec_ldDir_of_cellHolds h .w⟩⟩

/-- Settles O18: the load, then `stepIdx` of the old index, whose two directions are the rule's two formulas. -/
theorem loadAutoIndexes : Obligations.LoadAutoIndexes := by
  intro s r i v h
  rw [← stepIdx_inc, ← stepIdx_dec]
  exact ⟨exec_ldAuto_of_cellHolds h r .inc, exec_ldAuto_of_cellHolds h r .dec⟩

/-! ## Stores to a RAM cell (R88, R89, R91) -/

/-- What a store leaves in the cells depends on the RAM of the state after it alone. -/
theorem storesCell_congr {s t u : State} {e : DataAddr} {v : Nibble} (h : storesCell s t e v) (hram : u.ram = t.ram) :
    storesCell s u e v := by
  obtain ⟨hsame, hother⟩ := h
  exact ⟨(readCell_congr hram e).trans hsame, fun d hd => (readCell_congr hram d).trans (hother d hd)⟩

section
variable {s : State} {r : DataReg} {v : Nibble} (hr : readData r s = .ok v)
include hr

/-- A store of a readable register to a RAM cell completes, with that cell alone written (R39). -/
theorem storeTo_of_inRam {e : DataAddr} (h : inRam s.par e = true) :
    ∃ t, storeTo r e s = .ok t ∧ storesCell s t e v ∧ t = { s with ram := t.ram } :=
  ⟨_, (storeTo_of_readData hr e).trans (memWrite_of_inRam h), storesCell_write s e v, rfl⟩

theorem exec_stIdx_of_inRam {i : IdxReg} (h : inRam s.par (eaIdx i s) = true) :
    ∃ t, exec (.stIdx r i) s = .next t ∧ storesCell s t (eaIdx i s) v ∧ t = { s with ram := t.ram } := by
  obtain ⟨t, hstore, ht⟩ := storeTo_of_inRam hr h
  exact ⟨t, andThen_pure_next.2 hstore, ht⟩

theorem exec_stDir_of_inRam {d : DataAddr} (h : inRam s.par d = true) :
    ∃ t, exec (.stDir r d) s = .next t ∧ storesCell s t d v ∧ t = { s with ram := t.ram } := by
  obtain ⟨t, hstore, ht⟩ := storeTo_of_inRam hr h
  exact ⟨t, andThen_pure_next.2 hstore, ht⟩

/-- After the store the index register steps from its old value, which the store left alone. -/
theorem exec_stAuto_of_inRam {i : IdxReg} (h : inRam s.par (eaIdx i s) = true) (dir : Dir) :
    ∃ t, exec (.stAuto r i dir) s = .next t ∧ storesCell s t (eaIdx i s) v ∧
      t = writeIdx i (stepIdx s.par dir (readIdx i s)) { s with ram := t.ram } := by
  obtain ⟨u, hstore, hcell, hframe⟩ := storeTo_of_inRam hr h
  have hram : (autoIdx i dir u).ram = u.ram := autoIdx_ram i dir u
  refine ⟨autoIdx i dir u, andThen_next.2 ⟨u, hstore, rfl⟩, storesCell_congr hcell hram, ?_⟩
  rw [hram, hframe]
  rfl

end

/-- Settles O16: both forms are one store to the address they name. -/
theorem storeWritesCell : Obligations.StoreWritesCell :=
  fun _ _ _ hr => ⟨fun _ h => exec_stIdx_of_inRam hr h, fun _ h => exec_stDir_of_inRam hr h⟩

/-- Settles O19: the store, then `stepIdx` of the old index, whose two directions are the rule's two formulas. -/
theorem storeAutoIndexes : Obligations.StoreAutoIndexes := by
  intro s r i v hr h
  rw [← stepIdx_inc, ← stepIdx_dec]
  exact ⟨exec_stAuto_of_inRam hr h .inc, exec_stAuto_of_inRam hr h .dec⟩

end Sys2Proof.Machine
end

section
/-! Proofs about the Immediate Load family (42_immediate_load.md): each load is one named register write of the literal,
zero-extended where the register is an index register. -/

namespace Sys2Proof.Machine

/-! ## One register write per load -/

theorem exec_ldiA (n : Nibble) (s : State) : exec (.ldiA n) s = .next (writeData .a n s) := rfl

theorem exec_ldiR_b (n : Nibble) (s : State) : exec (.ldiR .b n) s = .next (writeData .b n s) := rfl

theorem exec_ldiR_w (n : Nibble) (s : State) : exec (.ldiR .w n) s = .next (writeData .w n s) := rfl

/-- R94: the four bits of the literal keep their value in the ten of the index register. -/
theorem exec_ldiX (i : IdxReg) (n : Nibble) (s : State) :
    exec (.ldiX i n) s = .next (writeIdx i (BitVec.ofNat 10 n.toNat) s) := by
  rw [BitVec.ofNat_toNat]
  rfl

/-! ## The obligations (R92, R93, R94) -/

/-- Settles O20: the fixed opcode's decoding, then the write of `A`. -/
theorem loadImmediateAccumulator : Obligations.LoadImmediateAccumulator :=
  fun p n w2 s => ⟨decode_ldiA_opcode p n w2, exec_ldiA n s⟩

/-- Settles O21: one write per register, which is the record update the statement spells out. -/
theorem loadImmediateRegisters : Obligations.LoadImmediateRegisters :=
  fun s n => ⟨exec_ldiR_b n s, exec_ldiR_w n s, exec_ldiX .x n s, exec_ldiX .y n s⟩

end Sys2Proof.Machine
end

section
/-! Proofs about the Arithmetic/Logic family (43_arith_logic.md): the results of the 4-bit arithmetic as the rules write
them, then what each shape of meaning answers where its operand is read and where it is not. -/

namespace Sys2Proof.Machine

/-! ## The 4-bit results (F2, R95-R99) -/

theorem bit_decide (p : Prop) [Decidable p] : bit (decide p) = if p then 1 else 0 := by
  simp [bit]

theorem addNibbles_eq (a b : Nibble) (k : Nat) :
    addNibbles a b k = (BitVec.ofNat 4 (a.toNat + b.toNat + k), if 16 ≤ a.toNat + b.toNat + k then 1 else 0) := by
  rw [addNibbles, bit_decide]

/-- The difference is below 0 exactly where `a < b + c` (R97). -/
theorem subBorrow_eq (a b : Nibble) (c : BitVec 1) :
    subBorrow a b c = (BitVec.ofInt 4 ((a.toNat : Int) - b.toNat - c.toNat),
      if a.toNat < b.toNat + c.toNat then 1 else 0) := by
  have hneg : ((a.toNat : Int) - b.toNat - c.toNat < 0) ↔ a.toNat < b.toNat + c.toNat := by omega
  simp only [subBorrow, bit_decide, hneg]

theorem subComplement_eq (a b : Nibble) (c : BitVec 1) :
    subComplement a b c = (BitVec.ofNat 4 (a.toNat + (15 - b.toNat) + c.toNat),
      if 16 ≤ a.toNat + (15 - b.toNat) + c.toNat then 1 else 0) := by
  rw [subComplement, bit_decide]

/-- Taking 16 away is nothing modulo 16. -/
theorem ofInt_sub_sixteen (n : Nat) : BitVec.ofInt 4 ((n : Int) - 16) = BitVec.ofNat 4 n := by
  apply BitVec.eq_of_toNat_eq
  rw [BitVec.toNat_ofInt, BitVec.toNat_ofNat]
  omega

/-- R97: the complement adder's sum is the difference plus 16, so from the complement of the carry it gives the same
result, and carries out exactly where the difference does not borrow. -/
theorem subComplement_not (a b : Nibble) (c : BitVec 1) :
    subComplement a b (~~~ c) = ((subBorrow a b c).1, ~~~ (subBorrow a b c).2) := by
  have hb := b.isLt
  have hc := c.isLt
  have hnot : (~~~ c).toNat = 1 - c.toNat := BitVec.toNat_not
  have hsum : (a.toNat : Int) - b.toNat - c.toNat
      = ((a.toNat + (15 - b.toNat) + (1 - c.toNat) : Nat) : Int) - 16 := by omega
  rw [subComplement_eq, subBorrow_eq, hnot, hsum, ofInt_sub_sixteen]
  by_cases hborrow : a.toNat < b.toNat + c.toNat
  · rw [if_pos hborrow, if_neg (by omega), show ~~~ (1 : BitVec 1) = 0 by decide]
  · rw [if_neg hborrow, if_pos (by omega), show ~~~ (0 : BitVec 1) = 1 by decide]

/-- R98: the increment carries out of 15 alone. -/
theorem incNibble_eq (v : Nibble) :
    incNibble v = (BitVec.ofNat 4 (v.toNat + 1), if v = 15 then 1 else 0) := by
  have hwrap : 16 ≤ v.toNat + 1 ↔ v = 15 := by bv_omega
  simp [incNibble, addNibbles_eq, hwrap]

/-- R99: the decrement is an addition of 15 modulo 16, and borrows from 0 alone. -/
theorem decNibble_eq (v : Nibble) :
    decNibble v = (BitVec.ofNat 4 (v.toNat + 15), if v = 0 then 1 else 0) := by
  have hdiff : (v.toNat : Int) - (0 : Nibble).toNat - (1 : BitVec 1).toNat = ((v.toNat + 15 : Nat) : Int) - 16 := by
    simp; omega
  have hwrap : v.toNat < (0 : Nibble).toNat + (1 : BitVec 1).toNat ↔ v = 0 := by bv_omega
  rw [decNibble, subBorrow_eq, hdiff, ofInt_sub_sixteen]
  simp only [hwrap]

/-! ## ADD, ADC, SBC (R95-R97) -/

section
variable {f : Nibble → Nibble → BitVec 1 → Nibble × BitVec 1} {o : SrcOp} {s : State}

/-- An arithmetic form whose operand answers writes its result and flag over the state the read leaves. -/
theorem arithmetic_of_readSrc {v : Nibble} {t : State} (h : readSrc o s = .ok (v, t)) :
    arithmetic f o s = .next (setAC (f s.a v s.c) t) := by
  rw [arithmetic, h, andThen_ok]

/-- An arithmetic form ends in the fault of its operand. -/
theorem arithmetic_fault {e : Fault} (h : readSrc o s = .error e) : arithmetic f o s = .fault e := by
  rw [arithmetic, h, andThen_error]

end

theorem exec_add (o : SrcOp) (s : State) :
    exec (.add o) s = arithmetic (fun a b _ => addNibbles a b 0) o s := rfl

theorem exec_adc (o : SrcOp) (s : State) :
    exec (.adc o) s = arithmetic (fun a b c => addNibbles a b c.toNat) o s := rfl

theorem exec_sbc (o : SrcOp) (s : State) : exec (.sbc o) s = arithmetic (subNibbles s.par.subCarry) o s := rfl

/-- Settles O22: the sum with no carry in. -/
theorem addResult : Obligations.AddResult := by
  intro o s
  refine ⟨fun t v h => ?_, fun e h => (exec_add o s).trans (arithmetic_fault h)⟩
  rw [exec_add, arithmetic_of_readSrc h, addNibbles_eq]; rfl

/-- Settles O23: the sum with the old `C` as the carry in. -/
theorem adcResult : Obligations.AdcResult := by
  intro o s
  refine ⟨fun t v h => ?_, fun e h => (exec_adc o s).trans (arithmetic_fault h)⟩
  rw [exec_adc, arithmetic_of_readSrc h, addNibbles_eq]; rfl

/-- Settles O24: each polarity is one of the two ways to subtract. -/
theorem sbcResult : Obligations.SbcResult := by
  intro o s
  refine ⟨fun t v h => ⟨fun hpol => ?_, fun hpol => ?_⟩, fun e h => (exec_sbc o s).trans (arithmetic_fault h)⟩
  · rw [exec_sbc, arithmetic_of_readSrc h, hpol, subNibbles, subBorrow_eq]; rfl
  · rw [exec_sbc, arithmetic_of_readSrc h, hpol, subNibbles, subComplement_eq]; rfl

/-- The state with the polarity of `SBC` set to `carry` and the flag complemented (R97). -/
def complementCarry (s : State) : State :=
  { s with par := { s.par with subCarry := .carry }, c := ~~~ s.c }

theorem ea_complementCarry (m : MemOp) (s : State) : ea m (complementCarry s) = ea m s := by
  cases m <;> rfl

/-- An operand's value depends neither on the polarity of `SBC` nor on `C`. -/
theorem readSrc_complementCarry {o : SrcOp} {s r : State} {v : Nibble} (h : readSrc o s = .ok (v, r)) :
    ∃ u, readSrc o (complementCarry s) = .ok (v, u) := by
  cases o with
  | imm n => cases h; exact ⟨_, rfl⟩
  | mem m =>
    rw [readSrc_mem, ea_complementCarry]
    rcases memRead_ok h with ⟨hcell, -⟩ | ⟨hunused, rfl, -⟩
    · exact ⟨_, memRead_of_cellHolds hcell⟩
    · exact ⟨_, memRead_unused hunused⟩

/-- Settles O25: both runs subtract the same operand, and `subComplement_not` compares the two results. -/
theorem sbcPolaritiesAgree : Obligations.SbcPolaritiesAgree := by
  intro o s r v hpol h
  obtain ⟨u, hu⟩ := readSrc_complementCarry h
  have hborrow : exec (.sbc o) s = .next (setAC (subBorrow s.a v s.c) r) := by
    rw [exec_sbc, arithmetic_of_readSrc h, hpol, subNibbles]
  have hcarry : exec (.sbc o) (complementCarry s) = .next (setAC (subComplement s.a v (~~~ s.c)) u) :=
    arithmetic_of_readSrc hu
  rw [subComplement_not] at hcarry
  exact ⟨_, _, hborrow, hcarry, rfl, rfl⟩

/-! ## Read-modify-write of a cell (R98, R99, R108, R109) -/

/-- Read a cell, write `g` of its value to the same address, and go on with `k`: the shape that `modifyCell` and
`rewriteCell` share. -/
def readThenWrite (g : Nibble → Nibble) (k : Nibble → State → Result) (m : MemOp) (s : State) : Result :=
  andThen (readMem m s) (fun q => andThen (memWrite q.2 (ea m s) (g q.1)) (k q.1))

theorem modifyCell_eq (f : Nibble → Nibble × BitVec 1) (m : MemOp) (s : State) :
    modifyCell f m s = readThenWrite (fun v => (f v).1) (fun v t => .next { t with c := (f v).2 }) m s := rfl

theorem rewriteCell_eq (f : Nibble → Nibble) (m : MemOp) (s : State) :
    rewriteCell f m s = readThenWrite f (fun _ => .next) m s := rfl

section
variable {g : Nibble → Nibble} {k : Nibble → State → Result} {m : MemOp} {s : State}

theorem readThenWrite_of_cellHolds {v : Nibble} (h : cellHolds s (ea m s) v) :
    readThenWrite g k m s = k v { s with ram := s.ram.write (ea m s).toNat ((g v).setWidth 8) } := by
  rw [readThenWrite, readMem, memRead_of_cellHolds h, andThen_ok, memWrite_of_inRam h.1, andThen_ok]

theorem readThenWrite_fault {e : Fault} (h : memRead s (ea m s) = .error e) : readThenWrite g k m s = .fault e := by
  rw [readThenWrite, readMem, h, andThen_error]

/-- An unused address answers the read with a draw; it is the write that faults (R37). -/
theorem readThenWrite_unused (h : unusedAddr s (ea m s)) :
    readThenWrite g k m s = .fault (.unusedWrite (ea m s)) := by
  have hwrite : memWrite { s with draws := s.draws + 1 } (ea m s) (g (Config.freeNibble s.draws)) = _ :=
    memWrite_unused h
  rw [readThenWrite, readMem, memRead_unused h, andThen_ok, hwrite, andThen_error]

end

/-- A changed RAM cell: that cell is written, `C` takes the flag, and nothing else changes. -/
theorem modifyCell_of_cellHolds (f : Nibble → Nibble × BitVec 1) {m : MemOp} {s : State} {v : Nibble}
    (h : cellHolds s (ea m s) v) :
    ∃ t, modifyCell f m s = .next t ∧ storesCell s t (ea m s) (f v).1 ∧
      t = { s with ram := t.ram, c := (f v).2 } := by
  rw [modifyCell_eq, readThenWrite_of_cellHolds h]
  exact ⟨_, rfl, storesCell_congr (storesCell_write s _ _) rfl, rfl⟩

/-- Settles O26: both are `modifyCell`, with the increment and the decrement of a nibble. -/
theorem incDecCell : Obligations.IncDecCell := by
  intro m s v h
  have hinc := modifyCell_of_cellHolds incNibble h
  have hdec := modifyCell_of_cellHolds decNibble h
  rw [incNibble_eq] at hinc
  rw [decNibble_eq] at hdec
  exact ⟨hinc, hdec⟩

/-- The four read-modify-write instructions have one shape. -/
theorem exec_eq_readThenWrite {m : MemOp} {n : Fin 4} {i : Instr}
    (hi : i = .incM m ∨ i = .decM m ∨ i = .bset n m ∨ i = .bclr n m) (s : State) :
    ∃ g k, exec i s = readThenWrite g k m s := by
  rcases hi with rfl | rfl | rfl | rfl
  · exact ⟨_, _, modifyCell_eq incNibble m s⟩
  · exact ⟨_, _, modifyCell_eq decNibble m s⟩
  · exact ⟨_, _, rewriteCell_eq (fun v => v ||| bitMask n) m s⟩
  · exact ⟨_, _, rewriteCell_eq (fun v => v &&& ~~~ bitMask n) m s⟩

/-- Settles O27: an unused address faults in the write, the other two in the read. -/
theorem readModifyWriteFaults : Obligations.ReadModifyWriteFaults := by
  intro m n s i hi
  obtain ⟨g, k, hexec⟩ := exec_eq_readThenWrite hi s
  rw [hexec]
  exact ⟨readThenWrite_unused, fun h => readThenWrite_fault (memRead_window h),
    fun h hc => readThenWrite_fault (memRead_undef h hc)⟩

/-! ## DAA, DAS (R100, R101) -/

/-- The rows of the table for the entries above 9 hold values of 0..9 by their type (log 28). -/
theorem adjust_le_nine (t : AdjustTable) {a : Nibble} (h : 9 < a.toNat) (c : BitVec 1) :
    (adjust t a c).1.toNat ≤ 9 := by
  rw [adjust, dif_neg (by omega), BitVec.toNat_ofNat]
  exact (Nat.mod_le _ _).trans (by omega)

/-- Settles O28: both write the table's answer to `A` and `C`. -/
theorem decimalAdjustRange : Obligations.DecimalAdjustRange :=
  fun s => ⟨⟨_, rfl, rfl, fun h => adjust_le_nine s.par.daa h s.c⟩,
    ⟨_, rfl, rfl, fun h => adjust_le_nine s.par.das h s.c⟩⟩

/-! ## AND, OR, XOR (R102-R104) -/

section
variable {f : Nibble → Nibble → Nibble} {m : MemOp} {s : State}

/-- The draw of the flag comes after the operand's own, if the operand was drawn (log 34). -/
theorem logic_of_readMem {v : Nibble} {t : State} (h : readMem m s = .ok (v, t)) :
    logic f m s = .next { t with a := f s.a v, c := Config.freeBit t.draws, draws := t.draws + 1 } := by
  rw [logic, h]; rfl

theorem logic_fault {e : Fault} (h : readMem m s = .error e) : logic f m s = .fault e := by
  rw [logic, h, andThen_error]

end

/-- Settles O30: the three forms are `logic` with their bitwise operation. -/
theorem logicResult : Obligations.LogicResult :=
  fun _ _ => ⟨fun _ _ h => ⟨logic_of_readMem h, logic_of_readMem h, logic_of_readMem h⟩,
    fun _ h => ⟨logic_fault h, logic_fault h, logic_fault h⟩⟩

end Sys2Proof.Machine
end

section
/-! Proofs about the Compare-and-Skip family (44_compare_skip.md): what the shape the three instructions share answers
where its operand is read and where it is not. -/

namespace Sys2Proof.Machine

/-! ## The shared shape (R77, R105-R107) -/

section
variable {rel : Nat → Nat → Bool} {r : CmpReg} {o : SrcOp} {s : State}

/-- The operand's read moves neither `PC` nor the program store, so the skip is over the instruction at the `PC` the
handler began with; the draw of the flag comes after the operand's own (log 34). -/
theorem compareSkip_of_readSrc {v : Nibble} {t : State} (h : readSrc o s = .ok (v, t)) :
    compareSkip rel r o s = .next { t with
      c := Config.freeBit t.draws, draws := t.draws + 1
      pc := if rel (readCmp r s) v.toNat then afterSkip s else s.pc } := by
  rw [compareSkip, h, andThen_ok]
  obtain ⟨n, rfl⟩ := readSrc_frame h
  rw [skipIf_drawCarry]

/-- A comparison ends in the fault of its operand. -/
theorem compareSkip_fault {e : Fault} (h : readSrc o s = .error e) : compareSkip rel r o s = .fault e := by
  rw [compareSkip, h, andThen_error]

end

theorem exec_skeq (r : CmpReg) (o : SrcOp) (s : State) :
    exec (.skeq r o) s = compareSkip (fun a b => decide (a = b)) r o s := rfl

theorem exec_skne (r : CmpReg) (o : SrcOp) (s : State) :
    exec (.skne r o) s = compareSkip (fun a b => decide (a ≠ b)) r o s := rfl

theorem exec_sklt (r : CmpReg) (o : SrcOp) (s : State) :
    exec (.sklt r o) s = compareSkip (fun a b => decide (a < b)) r o s := rfl

/-! ## The obligation (R105, R106, R107) -/

/-- Settles O31: the three forms are `compareSkip` with their relation; `SKNE` skips where the equality fails. -/
theorem compareSkips : Obligations.CompareSkips := by
  intro r o s
  refine ⟨⟨rfl, rfl, rfl, rfl⟩, fun t v h => ⟨?_, ?_, ?_⟩, fun e h =>
    ⟨(exec_skeq r o s).trans (compareSkip_fault h), (exec_skne r o s).trans (compareSkip_fault h),
      (exec_sklt r o s).trans (compareSkip_fault h)⟩⟩
  · simp only [exec_skeq, compareSkip_of_readSrc h, decide_eq_true_eq]
  · simp only [exec_skne, compareSkip_of_readSrc h, decide_eq_true_eq, ne_eq, ite_not]
  · simp only [exec_sklt, compareSkip_of_readSrc h, decide_eq_true_eq]

end Sys2Proof.Machine
end

section
/-! Proofs about the Bit Test/Set/Reset in Memory family (45_bit_ops.md): the bits of the mask, a rewritten cell with its
frame, and the bit test as a comparison of one bit. -/

namespace Sys2Proof.Machine

/-! ## Single bits (R7, R59) -/

theorem getLsbD_bitMask (n k : Fin 4) : (bitMask n).getLsbD k.val = decide (k = n) := by
  show (BitVec.twoPow 4 n.val).getLsbD k.val = decide (k = n)
  simp [Fin.ext_iff, eq_comm]

/-- R108: the mask sets its own bit alone. -/
theorem getLsbD_or_bitMask (v : Nibble) (n k : Fin 4) :
    (v ||| bitMask n).getLsbD k.val = if k = n then true else v.getLsbD k.val := by
  rw [BitVec.getLsbD_or, getLsbD_bitMask]
  split <;> simp [*]

/-- R109: the complement of the mask clears the mask's bit alone. -/
theorem getLsbD_and_not_bitMask (v : Nibble) (n k : Fin 4) :
    (v &&& ~~~ bitMask n).getLsbD k.val = if k = n then false else v.getLsbD k.val := by
  rw [BitVec.getLsbD_and, BitVec.getLsbD_not, getLsbD_bitMask]
  split <;> simp [*]

theorem extractLsb'_one (v : Nibble) (n : Nat) : v.extractLsb' n 1 = BitVec.ofBool (v.getLsbD n) := by
  apply BitVec.eq_of_getLsbD_eq
  intro i hi
  obtain rfl : i = 0 := by omega
  simp

/-- R110: the one-bit field at `n` is `b` where bit `n`, as a Boolean, is. -/
theorem extractLsb'_one_beq (v : Nibble) (n : Nat) (b : BitVec 1) :
    (v.extractLsb' n 1 == b) = decide (v.getLsbD n = decide (b = 1)) := by
  rw [extractLsb'_one]
  obtain rfl | rfl := BitVec.eq_zero_or_eq_one b <;> cases v.getLsbD n <;> rfl

/-! ## BSET, BCLR (R108, R109) -/

theorem exec_bset (n : Fin 4) (m : MemOp) (s : State) :
    exec (.bset n m) s = rewriteCell (fun v => v ||| bitMask n) m s := rfl

theorem exec_bclr (n : Fin 4) (m : MemOp) (s : State) :
    exec (.bclr n m) s = rewriteCell (fun v => v &&& ~~~ bitMask n) m s := rfl

/-- A rewritten RAM cell: that cell is written, and nothing else changes. -/
theorem rewriteCell_of_cellHolds (f : Nibble → Nibble) {m : MemOp} {s : State} {v : Nibble}
    (h : cellHolds s (ea m s) v) :
    ∃ t, rewriteCell f m s = .next t ∧ storesCell s t (ea m s) (f v) ∧ t = { s with ram := t.ram } := by
  rw [rewriteCell_eq, readThenWrite_of_cellHolds h]
  exact ⟨_, rfl, storesCell_write s _ _, rfl⟩

/-- Settles O32: both are `rewriteCell`, with the mask joined to the cell's value or taken from it. -/
theorem bitSetClear : Obligations.BitSetClear := by
  intro n m s v h
  obtain ⟨t, hset, hcell, hframe⟩ := rewriteCell_of_cellHolds (fun v => v ||| bitMask n) h
  obtain ⟨u, hclr, hcell', hframe'⟩ := rewriteCell_of_cellHolds (fun v => v &&& ~~~ bitMask n) h
  exact ⟨⟨t, _, (exec_bset n m s).trans hset, hcell, hframe, getLsbD_or_bitMask v n⟩,
    ⟨u, _, (exec_bclr n m s).trans hclr, hcell', hframe', getLsbD_and_not_bitMask v n⟩⟩

/-! ## BTST (R110) -/

/-- The operand's read moves neither `PC` nor the program store, so the skip is over the instruction at the `PC` the
handler began with; the draw of the flag comes after the operand's own (log 34). -/
theorem execBtst_of_readMem {n : Fin 4} {m : MemOp} {s t : State} {v : Nibble} (h : readMem m s = .ok (v, t)) :
    execBtst n m s = .next { t with
      c := Config.freeBit t.draws, draws := t.draws + 1
      pc := if v.getLsbD n.val = decide (s.par.btstSkipOn = 1) then afterSkip s else s.pc } := by
  rw [execBtst, h, andThen_ok, extractLsb'_one_beq]
  obtain ⟨d, rfl⟩ := readMem_frame h
  simp only [skipIf_drawCarry, decide_eq_true_eq]

/-- A bit test ends in the fault of its operand. -/
theorem execBtst_fault {n : Fin 4} {m : MemOp} {s : State} {e : Fault} (h : readMem m s = .error e) :
    execBtst n m s = .fault e := by
  rw [execBtst, h, andThen_error]

/-- Settles O33: the tested field is one bit, so it is `BTST_SKIP_ON` where bit `n` says so. -/
theorem bitTestSkips : Obligations.BitTestSkips :=
  fun _ _ _ => ⟨fun _ _ h => execBtst_of_readMem h, fun _ h => execBtst_fault h⟩

end Sys2Proof.Machine
end

section
/-! Proofs about the Control Transfer family (46_control_transfer.md): the bits of a short target, the answers of the long
branches' targets, a return from interrupt as a return, and a return after the call it undoes. -/

namespace Sys2Proof.Machine

/-! ## BR (R111) -/

/-- The offset field's mask: its low `n` bits, all of them where the field is wider than an address. -/
theorem getLsbD_offsetMask (n : Nat) (k : Fin 14) :
    (BitVec.ofNat 14 (2 ^ n - 1)).getLsbD k.val = decide (k.val < n) := by
  rw [BitVec.getLsbD_ofNat, Nat.testBit_two_pow_sub_one, decide_eq_true k.isLt, Bool.true_and]

/-- `SB_BASE` as what it adds to `pc0` (R111). -/
theorem shortTarget_eq (sb : ShortBranch) (op : OpWord) (pc0 : ProgAddr) :
    shortTarget sb op pc0 =
      ((pc0 + if sb.base = .next then 1 else 0) &&& ~~~ BitVec.ofNat 14 (2 ^ sb.bits - 1)) |||
        ((op >>> sb.lo).setWidth 14 &&& BitVec.ofNat 14 (2 ^ sb.bits - 1)) := by
  obtain ⟨bits, lo, base⟩ := sb
  cases base <;> simp [shortTarget]

/-- R111: the mask takes a bit from the field of the opcode or from the page of the base. -/
theorem getLsbD_shortTarget (sb : ShortBranch) (op : OpWord) (pc0 : ProgAddr) (k : Fin 14) :
    (shortTarget sb op pc0).getLsbD k.val =
      if k.val < sb.bits then op.getLsbD (sb.lo + k.val)
      else (pc0 + if sb.base = .next then 1 else 0).getLsbD k.val := by
  rw [shortTarget_eq, BitVec.getLsbD_or, BitVec.getLsbD_and, BitVec.getLsbD_and, BitVec.getLsbD_not,
    getLsbD_offsetMask, BitVec.getLsbD_setWidth, BitVec.getLsbD_ushiftRight]
  by_cases hk : k.val < sb.bits <;> simp [hk]

/-- Settles O34: `pc0` is the word before `PC`, and each bit of the target is that of `SHORT_TARGET`. -/
theorem shortBranchTarget : Obligations.ShortBranchTarget :=
  fun op s => ⟨_, rfl, rfl, getLsbD_shortTarget s.par.shortBranch op (s.pc - 1)⟩

/-! ## BRL, BRT (R112, R113) -/

/-- R113: a `TABLE_TARGET` that may read `W` faults where it does (log 24). -/
theorem tableTarget_of_mayReadW {s : State} (h : s.par.tableMayReadW = true) (op : OpWord) :
    tableTarget op s =
      if Config.tableReadsW op (regView s) (progRead s.prog) = true then .error .wRead
      else .ok (Config.tableTarget op (regView s) (progRead s.prog)) := by
  rw [tableTarget, h, Bool.true_and]

/-- `BRT` jumps to the answer of `TABLE_TARGET` (R113). -/
theorem exec_brt (op : OpWord) (s : State) :
    exec (.brt op) s = andThen (tableTarget op s) fun a => .next { s with pc := a } := rfl

/-- Settles O35: `BRL` reads no state, and `BRT` answers as `TABLE_TARGET` does. -/
theorem longBranchTargets : Obligations.LongBranchTargets := by
  intro op w2 s
  refine ⟨rfl, fun h => ?_, fun h => ?_⟩
  · rw [exec_brt, tableTarget_of_readable h, andThen_ok]
  · rw [exec_brt, tableTarget_of_mayReadW h]
    split
    · rw [andThen_error]
    · rw [andThen_ok]

/-! ## BNZ (R114) -/

/-- Settles O36: the two branches of the test of `A`. -/
theorem branchNonZero : Obligations.BranchNonZero :=
  fun _ => ⟨fun h => if_pos h, fun h => if_neg h⟩

/-! ## RETI (R117) -/

/-- R117: `RETI` answers as `RET` does, with `IE` set in the state that leaves. -/
theorem exec_reti (s : State) : exec .reti s = mapNext (fun t => { t with ie := 1 }) (exec .ret s) := by
  show andThen ((returnTo s).map _) .next = mapNext _ (andThen (returnTo s) .next)
  cases returnTo s <;> rfl

/-- Settles O39: the three answers of `RET`, each with `IE` set where it is a state. -/
theorem returnFromInterruptEnables : Obligations.ReturnFromInterruptEnables := by
  intro s
  obtain ⟨hentry, hempty, hunder⟩ := returnPops s
  refine ⟨fun j h => ?_, fun h hp => ?_, fun h hp => ?_⟩
  · rw [exec_reti, hentry j h]; rfl
  · rw [exec_reti, hempty h hp]; rfl
  · rw [exec_reti, hunder h hp]; rfl

/-! ## CALL, then RET (R115, R116) -/

/-- A return pops the address just pushed into the free entry `j` and leaves `SP` at that entry again (R78, R79). -/
theorem exec_ret_of_pushed {s t : State} {a : ProgAddr} (j : Fin 64) (hj : j.val = s.sp.val) (h : pushed s t a) :
    exec .ret t = .next { t with pc := a, sp := s.sp } := by
  obtain ⟨hsp, hstk⟩ := h
  have htop : t.stk[j] = a := by rw [hstk, if_pos (by omega)]
  have hcast : j.castSucc = s.sp := Fin.ext hj
  rw [(returnPops t).1 j (by omega), htop, hcast]

/-- Settles O40: the call's push writes the entry at `SP` alone, and the return pops that entry. -/
theorem callReturnRoundTrip : Obligations.CallReturnRoundTrip := by
  intro op w2 s hs
  obtain ⟨t, hcall, hpush, hframe⟩ := (callPushesAndJumps op w2 s).1 (.inl hs)
  refine ⟨t, _, hcall, exec_ret_of_pushed ⟨s.sp.val, hs⟩ rfl hpush, ?_, fun j hj => ?_⟩
  · rw [hframe]
  · show t.stk[j] = s.stk[j]
    rw [hpush.2 j, if_neg (by omega)]

end Sys2Proof.Machine
end

section
/-! Proofs about the mode-control instructions and `ILLEGAL` (47_mode_control.md), the interrupt acknowledge and the
mask (60_exceptions.md), reset (70_reset_and_hazards.md), and decimal adjust under the reference instance
(43_arith_logic.md). -/

namespace Sys2Proof.Machine

/-! ## NOP, ILLEGAL (R118, R122) -/

/-- The words of an instruction as an address step (R55, R72). -/
theorem ofNat_wordCount (p : Params) (op : OpWord) :
    BitVec.ofNat 14 (wordCount p op) = if tw p op then 2 else 1 :=
  apply_ite (BitVec.ofNat 14) (tw p op = true) 2 1

/-- `ILLEGAL` emits its event and does nothing else (R122). -/
theorem exec_illegal (op : OpWord) (s : State) :
    exec (.illegal op) s = .next (emit s (.illegal (opAddr (wordCount s.par op) s) op)) := rfl

/-- Settles O41: `pc0` is `PC` less the words of the opcode. -/
theorem noOpAndIllegal : Obligations.NoOpAndIllegal := by
  intro op s
  refine ⟨rfl, ?_⟩
  rw [exec_illegal, opAddr, ofNat_wordCount, emit]

/-- After the fetches of a step, `pc0` is the address the step began at (R72). -/
theorem opAddr_fetched (s : State) : opAddr (wordCount s.par (progRead s.prog s.pc)) (fetched s) = s.pc :=
  BitVec.add_sub_cancel _ _

/-- Settles O60: the step emits `Trace`, passes the words of the opcode and runs `ILLEGAL`, which reports where they
began. -/
theorem illegalStepIdempotence : Obligations.IllegalStepIdempotence := by
  intro s op hf hi
  obtain rfl : op = progRead s.prog s.pc := decode_opcodeWord hi rfl
  have hstep := stepRunsDecoded s _ hf hi
  rw [exec_illegal, show (fetched s).par = s.par from rfl, opAddr_fetched] at hstep
  refine ⟨rfl, _, hstep, ?_⟩
  rw [← ofNat_wordCount, List.append_cons]
  rfl

/-! ## STBY, STOP, LATCH (R119-R121) -/

/-- R121: a `LATCH_ARG` that may read `W` faults where it does (log 23). -/
theorem latchArg_of_mayReadW {s : State} (h : s.par.latchMayReadW = true) (k op : OpWord) :
    latchArg k op s =
      if Config.latchReadsW k op (regView s) = true then .error .wRead
      else .ok (Config.latchArg k op (regView s)) := by
  rw [latchArg, h, Bool.true_and]

/-- `LATCH` emits the answer of `LATCH_ARG` (R121). -/
theorem exec_latch (k op : OpWord) (s : State) :
    exec (.latch k op) s = andThen (latchArg k op s) fun arg => .next (emit s (.latch k arg)) := rfl

/-- Settles O42: `STBY` and `STOP` read nothing, and `LATCH` answers as `LATCH_ARG` does. -/
theorem modeControlEffects : Obligations.ModeControlEffects := by
  intro k op s
  refine ⟨rfl, rfl, fun h => ?_, fun h => ?_⟩
  · rw [exec_latch, latchArg_of_readable h, andThen_ok, emit]
  · rw [exec_latch, latchArg_of_mayReadW h]
    split
    · rw [andThen_error]
    · rw [andThen_ok, emit]

/-! ## The interrupt acknowledge (R75, R127-R130) -/

section
variable {inp : HostInput} {s : State}

theorem chooseLine_one {k : Bool} (h0 : inp.int0 = !k) (h1 : inp.int1 = k) : chooseLine inp s = (k, s) := by
  cases k <;> simp [chooseLine, h0, h1]

theorem chooseLine_both (h0 : inp.int0 = true) (h1 : inp.int1 = true) :
    chooseLine inp s = (Config.freeBit s.draws == 1#1, { s with draws := s.draws + 1 }) := by
  simp [chooseLine, h0, h1]

/-- An acknowledge of the chosen line `k` from `u`, the state its draw leaves, answers wherever the push does (R130). -/
theorem ackStep_of_pushOk {k : Bool} {u : State} (hc : chooseLine inp s = (k, u)) (hp : pushOk u) :
    ∃ t, ackStep inp s = .next t ∧ pushed u t u.pc ∧ t = { u with
      pc := vector u.par k, ie := 0, sp := t.sp, stk := t.stk, events := u.events ++ [.intAck k]
      budget := u.budget - Config.intCost } := by
  obtain ⟨t, ht⟩ := interruptAck_of_pushOk k hp
  obtain ⟨-, hpush, hframe⟩ := interruptAck_ok ht
  refine ⟨charge Config.intCost t, ?_, hpush, ?_⟩
  · rw [ackStep, hc, ht, andThen_ok]
  · rw [hframe]
    rfl

theorem interruptAck_overflow (k : Bool) (hsp : s.sp.val = 64) (hp : s.par.stackPolicy = .refuse) :
    interruptAck k s = .error .stackOverflow := by
  rw [interruptAck, push_overflow _ hsp hp]
  rfl

/-- Whichever line is chosen, the push of a full stack under `refuse` faults (R78, R130). -/
theorem ackStep_overflow (hsp : s.sp.val = 64) (hp : s.par.stackPolicy = .refuse) :
    ackStep inp s = .fault .stackOverflow := by
  obtain ⟨n, hn⟩ := chooseLine_frame inp s
  have hack := interruptAck_overflow (s := { s with draws := n }) (chooseLine inp s).1 hsp hp
  rw [ackStep, hn, hack, andThen_error]

theorem interruptDue_of_enabled (h : s.ie = 1) : interruptDue inp s = (inp.int0 || inp.int1) := by
  simp [interruptDue, h]

theorem interruptDue_of_masked (h : s.ie = 0) : interruptDue inp s = false := by
  simp [interruptDue, h]

end

/-- With `IE = 1` and a line high, a step of the Fetching machine acknowledges (R75, R128). -/
theorem step_of_line {s : State} (hr : s.run = .fetching) (hie : s.ie = 1)
    (hl : ((hostInput s).int0 || (hostInput s).int1) = true) : step s = ackStep (hostInput s) (takeInput s) :=
  step_ack hr ((interruptDue_of_enabled hie).trans hl)

/-- Settles O44: the acknowledge of the one line that is high, of the drawn one where both are, and its overflow. -/
theorem interruptAcknowledge : Obligations.InterruptAcknowledge := by
  intro s hr hie
  refine ⟨fun k hp h0 h1 => ?_, fun hp h0 h1 => ?_, fun hsp hp hl => ?_⟩
  · rw [step_of_line hr hie (by simp [h0, h1])]
    exact ackStep_of_pushOk (chooseLine_one h0 h1) hp
  · rw [step_of_line hr hie (by simp [h0])]
    obtain ⟨t, hack, hpush, hframe⟩ := ackStep_of_pushOk (s := takeInput s) (chooseLine_both h0 h1) hp
    exact ⟨t, _, hack, hpush, hframe⟩
  · rw [step_of_line hr hie hl]
    exact ackStep_overflow hsp hp

/-! ## Masked lines (R22, R128) -/

theorem fetchesNext_of_masked {s : State} (hr : s.run = .fetching) (hie : s.ie = 0) : fetchesNext s :=
  ⟨hr, interruptDue_of_masked hie⟩

/-- Settles O46: a Halted step looks at `WAKE` alone, and with `IE = 0` a Fetching one acknowledges under no inputs and
fetches the same words. -/
theorem maskedLinesHaveNoEffect : Obligations.MaskedLinesHaveNoEffect := by
  intro s i rest a b hie
  cases s.run with
  | halted => exact (step_halted rfl).trans (step_halted rfl).symm
  | fetching =>
    have hf (inputs : List HostInput) : fetchesNext { s with run := .fetching, inputs := inputs } :=
      fetchesNext_of_masked rfl hie
    rw [step_fetches (hf _), step_fetches (hf _)]
    rfl

/-! ## Reset (R141, R142, R145) -/

/-- Settles O49: each is the value of a field of `State.resetWith`. -/
theorem resetLeaves : Obligations.ResetLeaves :=
  fun _ _ _ => ⟨rfl, rfl, rfl, rfl, rfl, rfl⟩

/-! ## DAA, DAS under the reference instance (R100, R101, 93 G2) -/

/-- The table of P0's `DAA_FN` is the function the spec writes, at each of its 32 entries. -/
theorem adjust_p0Daa : ∀ (a : Nibble) (c : BitVec 1), adjust AdjustTable.p0Daa a c =
    (if 9 < a.toNat ∨ c = 1 then a + 6 else a, if 9 < a.toNat ∨ c = 1 then 1 else 0) := by
  decide

/-- As `adjust_p0Daa`, for P0's `DAS_FN`. -/
theorem adjust_p0Das : ∀ (a : Nibble) (c : BitVec 1), adjust AdjustTable.p0Das a c =
    (if 9 < a.toNat ∨ c = 1 then a + 10 else a, if 9 < a.toNat ∨ c = 1 then 1 else 0) := by
  decide

theorem exec_daa (s : State) : exec .daa s = .next (setAC (adjust s.par.daa s.a s.c) s) := rfl

theorem exec_das (s : State) : exec .das s = .next (setAC (adjust s.par.das s.a s.c) s) := rfl

/-- Settles O29: `A` and `C` take the answer of the instance's table. -/
theorem decimalAdjustReference : Obligations.DecimalAdjustReference := by
  intro s
  refine ⟨fun h => ?_, fun h => ?_⟩
  · rw [exec_daa, h, adjust_p0Daa, setAC]
  · rw [exec_das, h, adjust_p0Das, setAC]

end Sys2Proof.Machine
end
